-- ==== Sys2Proof/Word.lean ====
section
/-! DEFINITION. The widths of this hardware (spec/00_scope.md R5, R9): bytes, halves, 32-bit words, and the
5-bit register index of spec/10_state.md R10. -/

namespace Sys2Proof

/-- One byte of memory. -/
abbrev Byte := BitVec 8

/-- A 16-bit half word. -/
abbrev Half := BitVec 16

/-- A 32-bit word: a register, an address, an instruction word (XLEN = ILEN = 32, R5). -/
abbrev Word := BitVec 32

/-- A register index: "always a 5-bit field of the instruction word" (R10), so 0 to 31. -/
abbrev Reg := BitVec 5

end Sys2Proof
end

