-- ==== Sys2Proof/Config.lean ====
section
/-! DEFINITION. The parameters of spec/00_scope.md R6, which the source names without a value: one structure, so
that an operation can take them as an argument and a claim can name, or quantify over, the values it rests on.
Their defaults are `Sys2Proof.Machine.params` in Sys2Proof/Machine/Params.lean. The hardware leaves no value
undefined (spec/93_implementation_defined.md part 1), so there is no free value. -/

namespace Sys2Proof

/-- `AUIPC_BASE` (R6, R96; 90_conflicts.md C1): the program counter AUIPC adds its immediate to. -/
inductive AuipcBase where
  /-- `pc_fetch`, the address of the AUIPC instruction itself (the default). -/
  | fetch
  /-- `pc_next`, the address of the instruction after it. -/
  | next
  deriving DecidableEq, Repr

/-- The function selector and the top-7-bit value of one register ALU instruction, which are recognised jointly
(R63). -/
structure Selector where
  /-- `funct3`. -/
  funct3 : BitVec 3
  /-- `funct7`. -/
  funct7 : BitVec 7
  deriving DecidableEq, Repr

/-- The function selectors of the branches, in the source's order (R61 rows 5 to 10). -/
structure BranchSelectors where
  beq : BitVec 3
  bne : BitVec 3
  blt : BitVec 3
  bge : BitVec 3
  bltu : BitVec 3
  bgeu : BitVec 3
  deriving DecidableEq, Repr

/-- The function selectors of the loads (R61 rows 11 to 15). -/
structure LoadSelectors where
  lb : BitVec 3
  lh : BitVec 3
  lw : BitVec 3
  lbu : BitVec 3
  lhu : BitVec 3
  deriving DecidableEq, Repr

/-- The function selectors of the stores (R61 rows 16 to 18). -/
structure StoreSelectors where
  sb : BitVec 3
  sh : BitVec 3
  sw : BitVec 3
  deriving DecidableEq, Repr

/-- The selectors of the immediate ALU family (R61 rows 19 to 27). The two right shifts have one function selector and
are told apart by the top 7 bits (R62). -/
structure OpImmSelectors where
  addi : BitVec 3
  slti : BitVec 3
  sltiu : BitVec 3
  xori : BitVec 3
  ori : BitVec 3
  andi : BitVec 3
  /-- SLLI's function selector. -/
  shiftLeft : BitVec 3
  /-- SRLI's and SRAI's function selector. -/
  shiftRight : BitVec 3
  /-- SLLI's top 7 bits. -/
  slliTop : BitVec 7
  /-- SRLI's top 7 bits. -/
  srliTop : BitVec 7
  /-- SRAI's top 7 bits. -/
  sraiTop : BitVec 7
  deriving DecidableEq, Repr

/-- The selectors of the register ALU family (R61 rows 28 to 37). -/
structure OpSelectors where
  add : Selector
  sub : Selector
  sll : Selector
  slt : Selector
  sltu : Selector
  xor : Selector
  srl : Selector
  sra : Selector
  or : Selector
  and : Selector
  deriving DecidableEq, Repr

/-- The parameters of R6. -/
structure Config where
  /-- `OPC_LUI`, the source's opcode A. -/
  opcLui : BitVec 7
  /-- `OPC_AUIPC`, the source's opcode B. -/
  opcAuipc : BitVec 7
  /-- `OPC_JAL`, the source's opcode C. -/
  opcJal : BitVec 7
  /-- `OPC_JALR`, the source's opcode D. -/
  opcJalr : BitVec 7
  /-- `OPC_BRANCH`, the source's opcode E. -/
  opcBranch : BitVec 7
  /-- `OPC_LOAD`, the source's opcode F. -/
  opcLoad : BitVec 7
  /-- `OPC_STORE`, the source's opcode G. -/
  opcStore : BitVec 7
  /-- `OPC_OPIMM`, the source's opcode H. -/
  opcOpImm : BitVec 7
  /-- `OPC_OP`, the source's opcode I. -/
  opcOp : BitVec 7
  /-- JALR's function selector. -/
  jalrSel : BitVec 3
  /-- The branches' selectors. -/
  branchSel : BranchSelectors
  /-- The loads' selectors. -/
  loadSel : LoadSelectors
  /-- The stores' selectors. -/
  storeSel : StoreSelectors
  /-- The immediate ALU instructions' selectors. -/
  opImmSel : OpImmSelectors
  /-- The register ALU instructions' selectors. -/
  opSel : OpSelectors
  /-- `ECALL_WORD`, "the single reserved all-ecall word pattern". -/
  ecallWord : Word
  /-- `SYSCALL_NUM_REG`, "the designated syscall number register" (R161). -/
  syscallNumReg : Reg
  /-- `SYS_WRITE_PTR_REG`, the write call's memory pointer (R163). -/
  writePtrReg : Reg
  /-- `SYS_WRITE_LEN_REG`, the write call's byte length (R163). -/
  writeLenReg : Reg
  /-- `EXIT_SENTINEL`, the ASCII bytes "EXIT" packed into 32 bits (R162). -/
  exitSentinel : Word
  /-- `AUIPC_BASE` (R96). -/
  auipcBase : AuipcBase
  /-- `RESET_REG_VALUE`, what x[1] and x[3] to x[31] hold at reset (R23). -/
  resetRegValue : Word
  deriving DecidableEq, Repr

end Sys2Proof
end

