-- ==== Sys2Proof/Machine/Params.lean ====
section
/-! DEFINITION. The values of this hardware's parameters: the defaults of spec/00_scope.md R6, the constants of
R5, and what the registers hold when a run begins (spec/10_state.md R23). -/

namespace Sys2Proof.Machine

/-- The defaults of R6. PRESUMED (log 1, 3, 4; the spec takes the numbers from RISC-V: D1 to D5), and the choices
D6 and D11 (log 5, 6). Unsafe: another value is another machine. -/
def params : Config where
  opcLui := 0x37#7
  opcAuipc := 0x17#7
  opcJal := 0x6F#7
  opcJalr := 0x67#7
  opcBranch := 0x63#7
  opcLoad := 0x03#7
  opcStore := 0x23#7
  opcOpImm := 0x13#7
  opcOp := 0x33#7
  jalrSel := 0#3
  branchSel := { beq := 0#3, bne := 1#3, blt := 4#3, bge := 5#3, bltu := 6#3, bgeu := 7#3 }
  loadSel := { lb := 0#3, lh := 1#3, lw := 2#3, lbu := 4#3, lhu := 5#3 }
  storeSel := { sb := 0#3, sh := 1#3, sw := 2#3 }
  opImmSel := {
    addi := 0#3, slti := 2#3, sltiu := 3#3, xori := 4#3, ori := 6#3, andi := 7#3
    shiftLeft := 1#3, shiftRight := 5#3
    slliTop := 0x00#7, srliTop := 0x00#7, sraiTop := 0x20#7 }
  opSel := {
    add := ⟨0#3, 0x00#7⟩, sub := ⟨0#3, 0x20#7⟩, sll := ⟨1#3, 0x00#7⟩, slt := ⟨2#3, 0x00#7⟩, sltu := ⟨3#3, 0x00#7⟩
    xor := ⟨4#3, 0x00#7⟩, srl := ⟨5#3, 0x00#7⟩, sra := ⟨5#3, 0x20#7⟩, or := ⟨6#3, 0x00#7⟩, and := ⟨7#3, 0x00#7⟩ }
  ecallWord := 0x00000073#32
  syscallNumReg := 17#5
  writePtrReg := 10#5
  writeLenReg := 11#5
  exitSentinel := 0x45584954#32
  auipcBase := .fetch
  resetRegValue := 0#32

/-- `ENTRY_PC` (R5, R194): the first instruction fetched is the word at address 8. -/
def entryPc : Word := 8#32

/-- `SP_REG` (R5): the register that holds MEM_SIZE when a run begins. -/
def spReg : Reg := 2#5

/-- `BSS_MAX` (R5): the loader's ceiling on the zero-fill region, 16 MiB. -/
def bssMax : Nat := 16 * 1024 * 1024

/-- `SYS_WRITE_NUM` (R5): the number of the write call. -/
def sysWriteNum : Word := 1#32

/-- The length of a BSS-size trailer in bytes (R190). -/
def trailerLen : Nat := 4

/-- MEM_SIZE of `State.reset`. DESIGN CHOICE (log 17): the empty image with the greatest BSS region the loader
allows, so that no program shapes it. Unsafe: a claim that rests on this size says nothing of a loaded program. -/
def resetMemSize : Word := BitVec.ofNat 32 bssMax

/-- The register file when a run begins (R23): x[2] holds MEM_SIZE, every other register but x[0] the parameter
RESET_REG_VALUE. DESIGN CHOICE of the spec, D6 (log 5), unsafe. -/
def bootRegs (c : Config) (memSize : Word) : Vector Word 32 :=
  ((Vector.replicate 32 c.resetRegValue).set 0 0#32).set spReg.toNat memSize (by decide)

end Sys2Proof.Machine
end

