-- ==== Sys2Proof/Syntax.lean ====
section
/-! DEFINITION. The 38 instructions of spec/30_encoding.md R61, in the table's order, one constructor per row of
spec/opcode_table.json. Operands are written in the order of the assembler syntax of R67: a jump's or branch's
immediate is the raw byte distance from the following instruction, before sign extension. -/

namespace Sys2Proof

/-- One instruction with its operands. -/
inductive Instr where
  /-- LUI (R95): `imm20` is word[31:12] (R57). -/
  | lui (rd : Reg) (imm20 : BitVec 20)
  /-- AUIPC (R96). -/
  | auipc (rd : Reg) (imm20 : BitVec 20)
  /-- JAL (R100): `imm` is the 21-bit imm_J, bit 0 always 0 (R58). -/
  | jal (rd : Reg) (imm : BitVec 21)
  /-- JALR (R101): `imm` is the 12-bit imm_I (R53). -/
  | jalr (rd rs1 : Reg) (imm : BitVec 12)
  /-- BEQ (R106): `imm` is the 13-bit imm_B, bit 0 always 0 (R56); the other branches likewise. -/
  | beq (rs1 rs2 : Reg) (imm : BitVec 13)
  /-- BNE (R107). -/
  | bne (rs1 rs2 : Reg) (imm : BitVec 13)
  /-- BLT (R108). -/
  | blt (rs1 rs2 : Reg) (imm : BitVec 13)
  /-- BGE (R109). -/
  | bge (rs1 rs2 : Reg) (imm : BitVec 13)
  /-- BLTU (R110). -/
  | bltu (rs1 rs2 : Reg) (imm : BitVec 13)
  /-- BGEU (R111). -/
  | bgeu (rs1 rs2 : Reg) (imm : BitVec 13)
  /-- LB (R116). -/
  | lb (rd rs1 : Reg) (imm : BitVec 12)
  /-- LH (R117). -/
  | lh (rd rs1 : Reg) (imm : BitVec 12)
  /-- LW (R118). -/
  | lw (rd rs1 : Reg) (imm : BitVec 12)
  /-- LBU (R119). -/
  | lbu (rd rs1 : Reg) (imm : BitVec 12)
  /-- LHU (R120). -/
  | lhu (rd rs1 : Reg) (imm : BitVec 12)
  /-- SB (R126): stores the low byte of x[rs2] at x[rs1] + imm_S (R55); the other stores likewise. -/
  | sb (rs2 rs1 : Reg) (imm : BitVec 12)
  /-- SH (R127). -/
  | sh (rs2 rs1 : Reg) (imm : BitVec 12)
  /-- SW (R128). -/
  | sw (rs2 rs1 : Reg) (imm : BitVec 12)
  /-- ADDI (R131). -/
  | addi (rd rs1 : Reg) (imm : BitVec 12)
  /-- SLTI (R132). -/
  | slti (rd rs1 : Reg) (imm : BitVec 12)
  /-- SLTIU (R133). -/
  | sltiu (rd rs1 : Reg) (imm : BitVec 12)
  /-- XORI (R134). -/
  | xori (rd rs1 : Reg) (imm : BitVec 12)
  /-- ORI (R135). -/
  | ori (rd rs1 : Reg) (imm : BitVec 12)
  /-- ANDI (R136). -/
  | andi (rd rs1 : Reg) (imm : BitVec 12)
  /-- SLLI (R137): `shamt` is word[24:20] (R54). -/
  | slli (rd rs1 : Reg) (shamt : BitVec 5)
  /-- SRLI (R138). -/
  | srli (rd rs1 : Reg) (shamt : BitVec 5)
  /-- SRAI (R139). -/
  | srai (rd rs1 : Reg) (shamt : BitVec 5)
  /-- ADD (R146). -/
  | add (rd rs1 rs2 : Reg)
  /-- SUB (R147). -/
  | sub (rd rs1 rs2 : Reg)
  /-- SLL (R148). -/
  | sll (rd rs1 rs2 : Reg)
  /-- SLT (R149). -/
  | slt (rd rs1 rs2 : Reg)
  /-- SLTU (R150). -/
  | sltu (rd rs1 rs2 : Reg)
  /-- XOR (R151). -/
  | xor (rd rs1 rs2 : Reg)
  /-- SRL (R152). -/
  | srl (rd rs1 rs2 : Reg)
  /-- SRA (R153). -/
  | sra (rd rs1 rs2 : Reg)
  /-- OR (R154). -/
  | or (rd rs1 rs2 : Reg)
  /-- AND (R155). -/
  | and (rd rs1 rs2 : Reg)
  /-- ECALL (R160): no operand in the word. -/
  | ecall
  deriving DecidableEq, Repr

end Sys2Proof
end

