-- ==== Sys2Proof/WellFormed.lean ====
section
/-! DEFINITION. Which operand values an encoding admits. Every field but two is as wide as its type; the
immediates of JAL and of the branches are even ("the immediate encodes an even byte offset", spec/30_encoding.md
R56, R58), which the type does not say and this check does. -/

namespace Sys2Proof

/-- Bit 0 of an immediate is 0, as R56 and R58 fix it. -/
def evenImm {n : Nat} (imm : BitVec n) : Bool := !imm.getLsbD 0

/-- The instruction has an encoding. -/
def Instr.wellFormed : Instr → Bool
  | .lui _ _ => true
  | .auipc _ _ => true
  | .jal _ imm => evenImm imm
  | .jalr _ _ _ => true
  | .beq _ _ imm => evenImm imm
  | .bne _ _ imm => evenImm imm
  | .blt _ _ imm => evenImm imm
  | .bge _ _ imm => evenImm imm
  | .bltu _ _ imm => evenImm imm
  | .bgeu _ _ imm => evenImm imm
  | .lb _ _ _ => true
  | .lh _ _ _ => true
  | .lw _ _ _ => true
  | .lbu _ _ _ => true
  | .lhu _ _ _ => true
  | .sb _ _ _ => true
  | .sh _ _ _ => true
  | .sw _ _ _ => true
  | .addi _ _ _ => true
  | .slti _ _ _ => true
  | .sltiu _ _ _ => true
  | .xori _ _ _ => true
  | .ori _ _ _ => true
  | .andi _ _ _ => true
  | .slli _ _ _ => true
  | .srli _ _ _ => true
  | .srai _ _ _ => true
  | .add _ _ _ => true
  | .sub _ _ _ => true
  | .sll _ _ _ => true
  | .slt _ _ _ => true
  | .sltu _ _ _ => true
  | .xor _ _ _ => true
  | .srl _ _ _ => true
  | .sra _ _ _ => true
  | .or _ _ _ => true
  | .and _ _ _ => true
  | .ecall => true

end Sys2Proof
end

