-- ==== Sys2Proof/Decode.lean ====
section
/-! DEFINITION. The decoder and the encoder of spec/30_encoding.md: the fields of R51, the immediates of R53 to
R58, the opcode map of R59 to R63, the unknown words of R64 by name, and, after them, the encoder written from the
same tables. Both take the parameters of R6 as an argument, every opcode, function selector and top-7-bit value among
them; `decode` and `encode` are theirs at the defaults. In the comments a number is a default.
The opcode, funct3 and funct7 numbers are PRESUMED (log 1, D1), the split of the immediates DEDUCED (log 11, D21).
-/

namespace Sys2Proof

/-! ### The fields of a word -/

/-- `opcode = word[6:0]` (R51). -/
def opcodeOf (w : Word) : BitVec 7 := w.extractLsb' 0 7

/-- `rd = word[11:7]` (R51). -/
def rdOf (w : Word) : Reg := w.extractLsb' 7 5

/-- `funct3 = word[14:12]` (R51), the source's function selector. -/
def funct3Of (w : Word) : BitVec 3 := w.extractLsb' 12 3

/-- `rs1 = word[19:15]` (R51). -/
def rs1Of (w : Word) : Reg := w.extractLsb' 15 5

/-- `rs2 = word[24:20]` (R51). -/
def rs2Of (w : Word) : Reg := w.extractLsb' 20 5

/-- `funct7 = word[31:25]` (R51), the source's "top 7 bits of the word". -/
def funct7Of (w : Word) : BitVec 7 := w.extractLsb' 25 7

/-- The 12 bits of imm_I, word[31:20] (R53). -/
def immIOf (w : Word) : BitVec 12 := w.extractLsb' 20 12

/-- `shamt = word[24:20]` (R54). -/
def shamtOf (w : Word) : BitVec 5 := w.extractLsb' 20 5

/-- The 12 bits of imm_S, word[31:25] ++ word[11:7] (R55, D21). -/
def immSOf (w : Word) : BitVec 12 := w.extractLsb' 25 7 ++ w.extractLsb' 7 5

/-- The 13 bits of imm_B, word[31] ++ word[7] ++ word[30:25] ++ word[11:8] ++ 0 (R56, D21). -/
def immBOf (w : Word) : BitVec 13 :=
  w.extractLsb' 31 1 ++ w.extractLsb' 7 1 ++ w.extractLsb' 25 6 ++ w.extractLsb' 8 4 ++ 0#1

/-- The 20 upper bits of imm_U, word[31:12] (R57). -/
def immUOf (w : Word) : BitVec 20 := w.extractLsb' 12 20

/-- The 21 bits of imm_J, word[31] ++ word[19:12] ++ word[20] ++ word[30:21] ++ 0 (R58, D21). -/
def immJOf (w : Word) : BitVec 21 :=
  w.extractLsb' 31 1 ++ w.extractLsb' 12 8 ++ w.extractLsb' 20 1 ++ w.extractLsb' 21 10 ++ 0#1

/-! ### Unknown words -/

/-- Why a word is no instruction: the cases (a) to (i) of R64. All of them are `Error(Decode)`. -/
inductive Reject where
  /-- (a) the opcode is none of the ten of R60. -/
  | unknownOpcode
  /-- (b) the environment call's opcode, but not the whole ECALL word. -/
  | notTheEcallWord
  /-- (c) JALR's opcode with a selector other than 0 (D29). -/
  | jalrSelector
  /-- (d) the branch opcode with selector 2 or 3. -/
  | branchSelector
  /-- (e) the load opcode with selector 3, 6 or 7. -/
  | loadSelector
  /-- (f) the store opcode with selector 3 to 7. -/
  | storeSelector
  /-- (g) SLLI's selector with nonzero upper bits (R62, D25). -/
  | shiftLeftUpperBits
  /-- (h) the right shifts' selector with top 7 bits neither 0000000 nor 0100000 (R62). -/
  | shiftRightTopBits
  /-- (i) the register ALU opcode with an unrecognised pair of selector and top 7 bits (R63). -/
  | aluSelector
  /-- The immediate ALU opcode with a selector that names none of its instructions: no word at the defaults, where the
  eight values are all taken (R60). -/
  | immSelector
  /-- Fewer than four bytes: no instruction word (R50). -/
  | tooFewBytes
  deriving DecidableEq, Repr

/-! ### The decoder -/

/-- The selector pair of a word (R63). -/
def selectorOf (w : Word) : Selector := ⟨funct3Of w, funct7Of w⟩

/-- The branch family by `funct3` (R60, R61 rows 5 to 10). -/
def decodeBranch (sel : BranchSelectors) (w : Word) : Except Reject Instr :=
  if funct3Of w = sel.beq then .ok (.beq (rs1Of w) (rs2Of w) (immBOf w))
  else if funct3Of w = sel.bne then .ok (.bne (rs1Of w) (rs2Of w) (immBOf w))
  else if funct3Of w = sel.blt then .ok (.blt (rs1Of w) (rs2Of w) (immBOf w))
  else if funct3Of w = sel.bge then .ok (.bge (rs1Of w) (rs2Of w) (immBOf w))
  else if funct3Of w = sel.bltu then .ok (.bltu (rs1Of w) (rs2Of w) (immBOf w))
  else if funct3Of w = sel.bgeu then .ok (.bgeu (rs1Of w) (rs2Of w) (immBOf w))
  else .error .branchSelector

/-- The load family by `funct3` (R61 rows 11 to 15). -/
def decodeLoad (sel : LoadSelectors) (w : Word) : Except Reject Instr :=
  if funct3Of w = sel.lb then .ok (.lb (rdOf w) (rs1Of w) (immIOf w))
  else if funct3Of w = sel.lh then .ok (.lh (rdOf w) (rs1Of w) (immIOf w))
  else if funct3Of w = sel.lw then .ok (.lw (rdOf w) (rs1Of w) (immIOf w))
  else if funct3Of w = sel.lbu then .ok (.lbu (rdOf w) (rs1Of w) (immIOf w))
  else if funct3Of w = sel.lhu then .ok (.lhu (rdOf w) (rs1Of w) (immIOf w))
  else .error .loadSelector

/-- The store family by `funct3` (R61 rows 16 to 18). -/
def decodeStore (sel : StoreSelectors) (w : Word) : Except Reject Instr :=
  if funct3Of w = sel.sb then .ok (.sb (rs2Of w) (rs1Of w) (immSOf w))
  else if funct3Of w = sel.sh then .ok (.sh (rs2Of w) (rs1Of w) (immSOf w))
  else if funct3Of w = sel.sw then .ok (.sw (rs2Of w) (rs1Of w) (immSOf w))
  else .error .storeSelector

/-- SLLI's own check: "error if the upper encoding bits are nonzero" (R62, D25). -/
def decodeShiftLeftImm (sel : OpImmSelectors) (w : Word) : Except Reject Instr :=
  if funct7Of w = sel.slliTop then .ok (.slli (rdOf w) (rs1Of w) (shamtOf w)) else .error .shiftLeftUpperBits

/-- SRLI and SRAI, "distinguished by the top 7 bits of the word" (R62). -/
def decodeShiftRightImm (sel : OpImmSelectors) (w : Word) : Except Reject Instr :=
  if funct7Of w = sel.srliTop then .ok (.srli (rdOf w) (rs1Of w) (shamtOf w))
  else if funct7Of w = sel.sraiTop then .ok (.srai (rdOf w) (rs1Of w) (shamtOf w))
  else .error .shiftRightTopBits

/-- The immediate ALU family by `funct3` (R61 rows 19 to 27). -/
def decodeOpImm (sel : OpImmSelectors) (w : Word) : Except Reject Instr :=
  if funct3Of w = sel.addi then .ok (.addi (rdOf w) (rs1Of w) (immIOf w))
  else if funct3Of w = sel.slti then .ok (.slti (rdOf w) (rs1Of w) (immIOf w))
  else if funct3Of w = sel.sltiu then .ok (.sltiu (rdOf w) (rs1Of w) (immIOf w))
  else if funct3Of w = sel.xori then .ok (.xori (rdOf w) (rs1Of w) (immIOf w))
  else if funct3Of w = sel.ori then .ok (.ori (rdOf w) (rs1Of w) (immIOf w))
  else if funct3Of w = sel.andi then .ok (.andi (rdOf w) (rs1Of w) (immIOf w))
  else if funct3Of w = sel.shiftLeft then decodeShiftLeftImm sel w
  else if funct3Of w = sel.shiftRight then decodeShiftRightImm sel w
  else .error .immSelector

/-- The register ALU family: selector and top 7 bits jointly (R63; R61 rows 28 to 37). -/
def decodeOp (sel : OpSelectors) (w : Word) : Except Reject Instr :=
  if selectorOf w = sel.add then .ok (.add (rdOf w) (rs1Of w) (rs2Of w))
  else if selectorOf w = sel.sub then .ok (.sub (rdOf w) (rs1Of w) (rs2Of w))
  else if selectorOf w = sel.sll then .ok (.sll (rdOf w) (rs1Of w) (rs2Of w))
  else if selectorOf w = sel.slt then .ok (.slt (rdOf w) (rs1Of w) (rs2Of w))
  else if selectorOf w = sel.sltu then .ok (.sltu (rdOf w) (rs1Of w) (rs2Of w))
  else if selectorOf w = sel.xor then .ok (.xor (rdOf w) (rs1Of w) (rs2Of w))
  else if selectorOf w = sel.srl then .ok (.srl (rdOf w) (rs1Of w) (rs2Of w))
  else if selectorOf w = sel.sra then .ok (.sra (rdOf w) (rs1Of w) (rs2Of w))
  else if selectorOf w = sel.or then .ok (.or (rdOf w) (rs1Of w) (rs2Of w))
  else if selectorOf w = sel.and then .ok (.and (rdOf w) (rs1Of w) (rs2Of w))
  else .error .aluSelector

/-- JALR needs its selector, 0 (R60, D29). -/
def decodeJalr (sel : BitVec 3) (w : Word) : Except Reject Instr :=
  if funct3Of w = sel then .ok (.jalr (rdOf w) (rs1Of w) (immIOf w)) else .error .jalrSelector

/-- The decoder (R59): the whole ECALL word first (D28), then the opcode, then within the family. Every word that
matches no row of R61 is rejected by name (R64). -/
def decodeWith (c : Config) (w : Word) : Except Reject Instr :=
  if w = c.ecallWord then .ok .ecall
  else if opcodeOf w = c.opcLui then .ok (.lui (rdOf w) (immUOf w))
  else if opcodeOf w = c.opcAuipc then .ok (.auipc (rdOf w) (immUOf w))
  else if opcodeOf w = c.opcJal then .ok (.jal (rdOf w) (immJOf w))
  else if opcodeOf w = c.opcJalr then decodeJalr c.jalrSel w
  else if opcodeOf w = c.opcBranch then decodeBranch c.branchSel w
  else if opcodeOf w = c.opcLoad then decodeLoad c.loadSel w
  else if opcodeOf w = c.opcStore then decodeStore c.storeSel w
  else if opcodeOf w = c.opcOpImm then decodeOpImm c.opImmSel w
  else if opcodeOf w = c.opcOp then decodeOp c.opSel w
  else if opcodeOf w = opcodeOf c.ecallWord then .error .notTheEcallWord
  else .error .unknownOpcode

/-- The decoder at the default parameters. -/
def decode (w : Word) : Except Reject Instr := decodeWith Machine.params w

/-! ### Instructions in bytes: little-endian, four bytes (R30, R50) -/

/-- The word whose bytes, lowest address first, are the four given (R30). -/
def wordOfBytes (b0 b1 b2 b3 : Byte) : Word := b3 ++ b2 ++ b1 ++ b0

/-- The four bytes of a word, lowest address first (R30). -/
def bytesOfWord (w : Word) : List Byte :=
  [w.extractLsb' 0 8, w.extractLsb' 8 8, w.extractLsb' 16 8, w.extractLsb' 24 8]

/-- Decodes the instruction at the head of a list of bytes and gives the bytes after it: every instruction is
four bytes (R50). -/
def decodeBytes : List Byte → Except Reject (Instr × List Byte)
  | b0 :: b1 :: b2 :: b3 :: rest =>
    match decode (wordOfBytes b0 b1 b2 b3) with
    | .ok i => .ok (i, rest)
    | .error r => .error r
  | _ => .error .tooFewBytes

/-- What the decoder reads from an instruction whose bits are `w`, numbered as spec/opcode_table.json numbers
them, of which the table gives the low `nbits` (every bit above them is 0): the word laid out in bytes, then
decoded. -/
def decodeTableWord (nbits w : Nat) : Option Instr :=
  match decodeBytes (bytesOfWord (BitVec.ofNat 32 (w % 2 ^ nbits))) with
  | .ok (i, _) => some i
  | .error _ => none

/-! ### The encoder: the formats of R52 -/

/-- R format. -/
def encodeR (funct7 : BitVec 7) (rs2 rs1 : Reg) (funct3 : BitVec 3) (rd : Reg) (opcode : BitVec 7) : Word :=
  funct7 ++ rs2 ++ rs1 ++ funct3 ++ rd ++ opcode

/-- I format. -/
def encodeI (imm : BitVec 12) (rs1 : Reg) (funct3 : BitVec 3) (rd : Reg) (opcode : BitVec 7) : Word :=
  imm ++ rs1 ++ funct3 ++ rd ++ opcode

/-- S format. -/
def encodeS (imm : BitVec 12) (rs2 rs1 : Reg) (funct3 : BitVec 3) (opcode : BitVec 7) : Word :=
  imm.extractLsb' 5 7 ++ rs2 ++ rs1 ++ funct3 ++ imm.extractLsb' 0 5 ++ opcode

/-- B format: bit 31 is imm[12], bits 30:25 imm[10:5], bits 11:8 imm[4:1], bit 7 imm[11]. -/
def encodeB (imm : BitVec 13) (rs2 rs1 : Reg) (funct3 : BitVec 3) (opcode : BitVec 7) : Word :=
  imm.extractLsb' 12 1 ++ imm.extractLsb' 5 6 ++ rs2 ++ rs1 ++ funct3 ++ imm.extractLsb' 1 4
    ++ imm.extractLsb' 11 1 ++ opcode

/-- U format. -/
def encodeU (imm20 : BitVec 20) (rd : Reg) (opcode : BitVec 7) : Word := imm20 ++ rd ++ opcode

/-- J format: bit 31 is imm[20], bits 30:21 imm[10:1], bit 20 imm[11], bits 19:12 imm[19:12]. -/
def encodeJ (imm : BitVec 21) (rd : Reg) (opcode : BitVec 7) : Word :=
  imm.extractLsb' 20 1 ++ imm.extractLsb' 1 10 ++ imm.extractLsb' 11 1 ++ imm.extractLsb' 12 8 ++ rd ++ opcode

/-- The word of an instruction (R52, R61). -/
def encodeWith (c : Config) : Instr → Word
  | .lui rd imm20 => encodeU imm20 rd c.opcLui
  | .auipc rd imm20 => encodeU imm20 rd c.opcAuipc
  | .jal rd imm => encodeJ imm rd c.opcJal
  | .jalr rd rs1 imm => encodeI imm rs1 c.jalrSel rd c.opcJalr
  | .beq rs1 rs2 imm => encodeB imm rs2 rs1 c.branchSel.beq c.opcBranch
  | .bne rs1 rs2 imm => encodeB imm rs2 rs1 c.branchSel.bne c.opcBranch
  | .blt rs1 rs2 imm => encodeB imm rs2 rs1 c.branchSel.blt c.opcBranch
  | .bge rs1 rs2 imm => encodeB imm rs2 rs1 c.branchSel.bge c.opcBranch
  | .bltu rs1 rs2 imm => encodeB imm rs2 rs1 c.branchSel.bltu c.opcBranch
  | .bgeu rs1 rs2 imm => encodeB imm rs2 rs1 c.branchSel.bgeu c.opcBranch
  | .lb rd rs1 imm => encodeI imm rs1 c.loadSel.lb rd c.opcLoad
  | .lh rd rs1 imm => encodeI imm rs1 c.loadSel.lh rd c.opcLoad
  | .lw rd rs1 imm => encodeI imm rs1 c.loadSel.lw rd c.opcLoad
  | .lbu rd rs1 imm => encodeI imm rs1 c.loadSel.lbu rd c.opcLoad
  | .lhu rd rs1 imm => encodeI imm rs1 c.loadSel.lhu rd c.opcLoad
  | .sb rs2 rs1 imm => encodeS imm rs2 rs1 c.storeSel.sb c.opcStore
  | .sh rs2 rs1 imm => encodeS imm rs2 rs1 c.storeSel.sh c.opcStore
  | .sw rs2 rs1 imm => encodeS imm rs2 rs1 c.storeSel.sw c.opcStore
  | .addi rd rs1 imm => encodeI imm rs1 c.opImmSel.addi rd c.opcOpImm
  | .slti rd rs1 imm => encodeI imm rs1 c.opImmSel.slti rd c.opcOpImm
  | .sltiu rd rs1 imm => encodeI imm rs1 c.opImmSel.sltiu rd c.opcOpImm
  | .xori rd rs1 imm => encodeI imm rs1 c.opImmSel.xori rd c.opcOpImm
  | .ori rd rs1 imm => encodeI imm rs1 c.opImmSel.ori rd c.opcOpImm
  | .andi rd rs1 imm => encodeI imm rs1 c.opImmSel.andi rd c.opcOpImm
  | .slli rd rs1 shamt => encodeR c.opImmSel.slliTop shamt rs1 c.opImmSel.shiftLeft rd c.opcOpImm
  | .srli rd rs1 shamt => encodeR c.opImmSel.srliTop shamt rs1 c.opImmSel.shiftRight rd c.opcOpImm
  | .srai rd rs1 shamt => encodeR c.opImmSel.sraiTop shamt rs1 c.opImmSel.shiftRight rd c.opcOpImm
  | .add rd rs1 rs2 => encodeR c.opSel.add.funct7 rs2 rs1 c.opSel.add.funct3 rd c.opcOp
  | .sub rd rs1 rs2 => encodeR c.opSel.sub.funct7 rs2 rs1 c.opSel.sub.funct3 rd c.opcOp
  | .sll rd rs1 rs2 => encodeR c.opSel.sll.funct7 rs2 rs1 c.opSel.sll.funct3 rd c.opcOp
  | .slt rd rs1 rs2 => encodeR c.opSel.slt.funct7 rs2 rs1 c.opSel.slt.funct3 rd c.opcOp
  | .sltu rd rs1 rs2 => encodeR c.opSel.sltu.funct7 rs2 rs1 c.opSel.sltu.funct3 rd c.opcOp
  | .xor rd rs1 rs2 => encodeR c.opSel.xor.funct7 rs2 rs1 c.opSel.xor.funct3 rd c.opcOp
  | .srl rd rs1 rs2 => encodeR c.opSel.srl.funct7 rs2 rs1 c.opSel.srl.funct3 rd c.opcOp
  | .sra rd rs1 rs2 => encodeR c.opSel.sra.funct7 rs2 rs1 c.opSel.sra.funct3 rd c.opcOp
  | .or rd rs1 rs2 => encodeR c.opSel.or.funct7 rs2 rs1 c.opSel.or.funct3 rd c.opcOp
  | .and rd rs1 rs2 => encodeR c.opSel.and.funct7 rs2 rs1 c.opSel.and.funct3 rd c.opcOp
  | .ecall => c.ecallWord

/-- The word of an instruction at the default parameters. -/
def encode (i : Instr) : Word := encodeWith Machine.params i

/-- The bytes of an instruction, lowest address first. -/
def encodeBytes (i : Instr) : List Byte := bytesOfWord (encode i)

/-! ### The table of R61, as spec/opcode_table.json has it: mask and match of each row -/

/-- The `mask` of an instruction's row. -/
def rowMask : Instr → Word
  | .lui _ _ => 0x0000007F#32
  | .auipc _ _ => 0x0000007F#32
  | .jal _ _ => 0x0000007F#32
  | .jalr _ _ _ => 0x0000707F#32
  | .beq _ _ _ => 0x0000707F#32
  | .bne _ _ _ => 0x0000707F#32
  | .blt _ _ _ => 0x0000707F#32
  | .bge _ _ _ => 0x0000707F#32
  | .bltu _ _ _ => 0x0000707F#32
  | .bgeu _ _ _ => 0x0000707F#32
  | .lb _ _ _ => 0x0000707F#32
  | .lh _ _ _ => 0x0000707F#32
  | .lw _ _ _ => 0x0000707F#32
  | .lbu _ _ _ => 0x0000707F#32
  | .lhu _ _ _ => 0x0000707F#32
  | .sb _ _ _ => 0x0000707F#32
  | .sh _ _ _ => 0x0000707F#32
  | .sw _ _ _ => 0x0000707F#32
  | .addi _ _ _ => 0x0000707F#32
  | .slti _ _ _ => 0x0000707F#32
  | .sltiu _ _ _ => 0x0000707F#32
  | .xori _ _ _ => 0x0000707F#32
  | .ori _ _ _ => 0x0000707F#32
  | .andi _ _ _ => 0x0000707F#32
  | .slli _ _ _ => 0xFE00707F#32
  | .srli _ _ _ => 0xFE00707F#32
  | .srai _ _ _ => 0xFE00707F#32
  | .add _ _ _ => 0xFE00707F#32
  | .sub _ _ _ => 0xFE00707F#32
  | .sll _ _ _ => 0xFE00707F#32
  | .slt _ _ _ => 0xFE00707F#32
  | .sltu _ _ _ => 0xFE00707F#32
  | .xor _ _ _ => 0xFE00707F#32
  | .srl _ _ _ => 0xFE00707F#32
  | .sra _ _ _ => 0xFE00707F#32
  | .or _ _ _ => 0xFE00707F#32
  | .and _ _ _ => 0xFE00707F#32
  | .ecall => 0xFFFFFFFF#32

/-- The `match` of an instruction's row. -/
def rowMatch : Instr → Word
  | .lui _ _ => 0x00000037#32
  | .auipc _ _ => 0x00000017#32
  | .jal _ _ => 0x0000006F#32
  | .jalr _ _ _ => 0x00000067#32
  | .beq _ _ _ => 0x00000063#32
  | .bne _ _ _ => 0x00001063#32
  | .blt _ _ _ => 0x00004063#32
  | .bge _ _ _ => 0x00005063#32
  | .bltu _ _ _ => 0x00006063#32
  | .bgeu _ _ _ => 0x00007063#32
  | .lb _ _ _ => 0x00000003#32
  | .lh _ _ _ => 0x00001003#32
  | .lw _ _ _ => 0x00002003#32
  | .lbu _ _ _ => 0x00004003#32
  | .lhu _ _ _ => 0x00005003#32
  | .sb _ _ _ => 0x00000023#32
  | .sh _ _ _ => 0x00001023#32
  | .sw _ _ _ => 0x00002023#32
  | .addi _ _ _ => 0x00000013#32
  | .slti _ _ _ => 0x00002013#32
  | .sltiu _ _ _ => 0x00003013#32
  | .xori _ _ _ => 0x00004013#32
  | .ori _ _ _ => 0x00006013#32
  | .andi _ _ _ => 0x00007013#32
  | .slli _ _ _ => 0x00001013#32
  | .srli _ _ _ => 0x00005013#32
  | .srai _ _ _ => 0x40005013#32
  | .add _ _ _ => 0x00000033#32
  | .sub _ _ _ => 0x40000033#32
  | .sll _ _ _ => 0x00001033#32
  | .slt _ _ _ => 0x00002033#32
  | .sltu _ _ _ => 0x00003033#32
  | .xor _ _ _ => 0x00004033#32
  | .srl _ _ _ => 0x00005033#32
  | .sra _ _ _ => 0x40005033#32
  | .or _ _ _ => 0x00006033#32
  | .and _ _ _ => 0x00007033#32
  | .ecall => 0x00000073#32

end Sys2Proof
end

