-- ==== Sys2Proof/Machine/Memory.lean ====
section
/-! DEFINITION. The byte memory of spec/10_state.md R18 as plain data: a list of cells in one canonical form,
addresses strictly rising and no cell equal to what an unlisted address reads as. These operations know no bounds;
the bounds of R32 are checked by the operations of Machine/Ops.lean, before a byte is read or written. -/

namespace Sys2Proof.Machine

/-- Memory contents, one cell per listed address. -/
abbrev Memory := List Host.Cell

/-- What an address that no cell lists reads as: every byte of memory is a byte of the loaded image or one of the
zero bytes the loader appends (R191), so it is 0. -/
def Memory.unlisted : Byte := 0#8

/-- The canonical form from an address up: cells at `lo` or above, strictly rising, none holding the unlisted
value. -/
def Memory.wfFrom : Nat → Memory → Bool
  | _, [] => true
  | lo, (a, b) :: m => decide (lo ≤ a) && (b != Memory.unlisted) && Memory.wfFrom (a + 1) m

/-- The canonical form: equal memories are equal lists. -/
def Memory.wf (m : Memory) : Bool := Memory.wfFrom 0 m

/-- Every listed address is below `size`: nothing is held at MEM_SIZE or above (R18). -/
def Memory.below (size : Nat) (m : Memory) : Bool := m.all fun cell => decide (cell.1 < size)

/-- The byte at an address. -/
def Memory.read : Memory → Nat → Byte
  | [], _ => Memory.unlisted
  | (a', b) :: m, a => if a' = a then b else Memory.read m a

/-- A cell put before a list, unless it holds the unlisted value. -/
def Memory.cons (a : Nat) (b : Byte) (m : Memory) : Memory := if b = Memory.unlisted then m else (a, b) :: m

/-- Write one byte, keeping the canonical form. -/
def Memory.write : Memory → Nat → Byte → Memory
  | [], a, b => Memory.cons a b []
  | (a', b') :: m, a, b =>
    if a < a' then Memory.cons a b ((a', b') :: m)
    else if a = a' then Memory.cons a b m
    else (a', b') :: Memory.write m a b

/-- `n` bytes from an address up, little-endian (R30): the byte at the lowest address is the least significant. -/
def Memory.readLE (m : Memory) (a : Nat) : (n : Nat) → BitVec (8 * n)
  | 0 => 0#0
  | n + 1 => Memory.readLE m (a + 1) n ++ Memory.read m a

/-- Write the low `n` bytes of a word from an address up, little-endian: mem[a+k] <- v[8k+7 : 8k] for k below `n`
(R34). -/
def Memory.writeLE (m : Memory) (a : Nat) : Nat → Word → Memory
  | 0, _ => m
  | n + 1, v => Memory.writeLE (Memory.write m a (v.setWidth 8)) (a + 1) n (v >>> 8)

/-- The `n` bytes from an address up, in ascending address order (R36). -/
def Memory.bytes (m : Memory) (a : Nat) : Nat → List Byte
  | 0 => []
  | n + 1 => Memory.read m a :: Memory.bytes m (a + 1) n

/-- The memory that holds a list of bytes from an address up and the unlisted value elsewhere (R191). -/
def Memory.ofBytes : Nat → List Byte → Memory
  | _, [] => []
  | a, b :: bs => Memory.cons a b (Memory.ofBytes (a + 1) bs)

end Sys2Proof.Machine
end

