-- ==== Sys2Proof/Machine/State.lean ====
section
/-! DEFINITION. The state of the machine (spec/10_state.md R10 to R21), the reasons a step can stop
(spec/60_exceptions.md R171), and the state a run begins in (R23, R193). -/

namespace Sys2Proof.Machine

/-- The error reasons of R171. Each is fatal: the run ends (R170). -/
inductive ErrorReason where
  /-- The fetched word is no instruction (R64). -/
  | decode
  /-- A load or store touches a byte at MEM_SIZE or above (R32). -/
  | dataBounds
  /-- The write call's buffer reaches past MEM_SIZE (R36). -/
  | syscallBounds
  /-- An environment call with an unrecognised number (R164). -/
  | syscall
  /-- A fetch with `pc` not a multiple of 4 (R81, D8). -/
  | fetchMisaligned
  /-- A fetch whose four bytes are not all in memory (R81, D7). -/
  | fetchBounds
  deriving DecidableEq, Repr

/-- The run status of R21. -/
inductive RunStatus where
  /-- The run goes on. -/
  | running
  /-- The exit call was executed. -/
  | finished
  /-- A step raised an error. -/
  | error (reason : ErrorReason)
  deriving DecidableEq, Repr

/-- Everything the spec gives the machine. -/
structure State where
  /-- The program counter (R15). -/
  pc : Word
  /-- The 32 slots of the register file (R10). Slot 0 is no storage: `State.reg` and `State.setReg` of
  Machine/Ops.lean never read or write it (R11, R12; log 20). -/
  regs : Vector Word 32
  /-- The bytes mem[0 .. MEM_SIZE-1] (R18). -/
  mem : Memory
  /-- MEM_SIZE, constant for a run; its type is the constraint of R7 (log 16). -/
  memSize : Word
  /-- The instruction counter, unbounded (R19). -/
  instret : Nat
  /-- The output stream TEXT_OUT, oldest byte first (R20). -/
  out : List Byte
  /-- The run status (R21). -/
  status : RunStatus
  /-- What COUNT_OUT presents: nothing until a step returns Finished (R89; log 21). -/
  countOut : Option Nat
  deriving DecidableEq, Repr

/-- Why a step gives no next state. -/
inductive Fault where
  /-- `raise Error(reason)` (R170): raised by fetch, by the decode stage, by the loads and stores and by ECALL, as
  R171 lists. `after` is the state R86 and R82 give: the run status is the error, `pc` is `pc_next` unless the
  fetch failed, and nothing else has changed. It is never stepped and is no result of a run (R173). Safe: the
  hardware stops here too, and no claim about a next state is met by a fault (log 14). -/
  | error (reason : ErrorReason) (after : State)
  /-- A step from a state that is not `Running`: "no step is taken" (R21), so the machine is stuck. Raised by
  `step` alone. Safe (log 15). -/
  | runEnded
  deriving DecidableEq, Repr

/-- Inputs the model gives no meaning. -/
inductive Refusal where
  /-- An instruction that has no meaning yet; no arm of this model is refused so. Safe. -/
  | notModelled (mnemonic : String)
  /-- `LoaderError` (R192): a blob shorter than 4 bytes, or a memory of 2^32 bytes or more. Raised by the loader
  alone; no machine is constructed (log 18). Safe. -/
  | loaderError
  deriving DecidableEq, Repr

/-- The Machine State constructed from a loader-produced memory (R23, R193): `pc` at the entry offset, x[2] at
MEM_SIZE, the counter 0, nothing written out, the run status Running. -/
def State.boot (c : Config) (mem : Memory) (memSize : Word) : State where
  pc := entryPc
  regs := bootRegs c memSize
  mem := mem
  memSize := memSize
  instret := 0
  out := []
  status := .running
  countOut := none

/-- The machine right after a reset in which the loader was given an empty image: memory lists nothing, and
MEM_SIZE is the loader's greatest BSS region. DESIGN CHOICE (log 17), unsafe. A program comes to run by the loader
(Machine/Loader.lean), which constructs the reset state of a blob. -/
def State.reset : State := State.boot params [] resetMemSize

end Sys2Proof.Machine
end

