-- ==== Sys2Proof/Machine/Ops.lean ====
section
/-! DEFINITION. The named operations over registers, the program counter and memory, and raising an error: the
primitives `x[i]`, `x[i] <- v`, `pc <- t`, `MemRead`, `MemWrite` and `raise Error` of spec/00_scope.md R9. Every
meaning reaches the state through them. -/

namespace Sys2Proof.Machine

/-- What a step, an instruction or the loader answers. -/
abbrev Result := Host.Outcome State Fault Refusal

/-! ### Registers -/

/-- The register file's own read: slot 0 is never looked at (R11). -/
def readReg (regs : Vector Word 32) (r : Reg) : Word :=
  if r = 0#5 then 0#32 else regs[r.toNat]'(show r.toNat < 32 from r.isLt)

/-- The register file's own write: a write to register 0 is discarded (R12). -/
def writeReg (regs : Vector Word 32) (r : Reg) (v : Word) : Vector Word 32 :=
  if r = 0#5 then regs else regs.set r.toNat v (show r.toNat < 32 from r.isLt)

/-- `x[r]` (R9): register 0 always reads as zero (R11). -/
def State.reg (s : State) (r : Reg) : Word := readReg s.regs r

/-- `x[r] <- v` (R9): discarded for register 0 (R12). -/
def State.setReg (s : State) (r : Reg) (v : Word) : State := { s with regs := writeReg s.regs r v }

/-! ### The other fields -/

/-- `pc <- t` (R9): any 32-bit target is written, none is checked here (R17, D26). -/
def State.setPc (s : State) (t : Word) : State := { s with pc := t }

/-- Memory replaced. -/
def State.setMem (s : State) (m : Memory) : State := { s with mem := m }

/-- The run status replaced (R21). -/
def State.setStatus (s : State) (st : RunStatus) : State := { s with status := st }

/-- Bytes appended to the output stream (R20). -/
def State.emit (s : State) (bs : List Byte) : State := { s with out := s.out ++ bs }

/-! ### Raising an error -/

/-- `raise Error(reason)` (R170): the step ends at once and the run status becomes the error; nothing else changes
(R86). The one operation by which anything stops. There is no handler, no saved state and no vector, so there is
no entry to model, and no return from one (R177). -/
def raise (reason : ErrorReason) (s : State) : Result := .fault (.error reason (s.setStatus (.error reason)))

/-! ### Memory -/

/-- The byte at an address (R18). -/
def State.byte (s : State) (a : Nat) : Byte := Memory.read s.mem a

/-- The bounds rule (R32): `n` bytes at `a` are in bounds if and only if a + n <= MEM_SIZE in unbounded
arithmetic (D9, log 8). -/
def State.inBounds (s : State) (a n : Nat) : Bool := decide (a + n ≤ s.memSize.toNat)

/-- `MemRead(addr, n)` (R33): the bounds check, then `n` bytes, little-endian. The state does not change. -/
def memRead (s : State) (addr : Word) (n : Nat) : Except ErrorReason (BitVec (8 * n)) :=
  if s.inBounds addr.toNat n then .ok (Memory.readLE s.mem addr.toNat n) else .error .dataBounds

/-- `MemWrite(addr, n, v)` (R34): the bounds check before any byte is written (D18), then the low `n` bytes of `v`,
little-endian. -/
def memWrite (s : State) (addr : Word) (n : Nat) (v : Word) : Except ErrorReason State :=
  if s.inBounds addr.toNat n then .ok (s.setMem (Memory.writeLE s.mem addr.toNat n v)) else .error .dataBounds

/-- The buffer read of system call 1 (R36): in bounds if and only if u(ptr) + u(len) <= MEM_SIZE in unbounded
arithmetic, the empty buffer included (D17, log 13); then the bytes in ascending address order. -/
def readBuffer (s : State) (ptr len : Word) : Except ErrorReason (List Byte) :=
  if s.inBounds ptr.toNat len.toNat then .ok (Memory.bytes s.mem ptr.toNat len.toNat) else .error .syscallBounds

end Sys2Proof.Machine
end

