-- ==== Sys2Proof/Machine/Cycle.lean ====
section
/-! DEFINITION. The step cycle of spec/40_step_cycle.md R80 around the dispatch of an instruction: fetch (R81),
advance (R82), decode (R83), and what the run controller does with a step that completes (R87 to R89). -/

namespace Sys2Proof.Machine

/-- The fetch stage (R81): the alignment check first, then the bounds check, then the little-endian word. Both
errors are decisions of the spec (D7, D8; log 7). -/
def fetch (s : State) : Except ErrorReason Word :=
  if s.pc.extractLsb' 0 2 ≠ 0#2 then .error .fetchMisaligned
  else if s.inBounds s.pc.toNat 4 then .ok (Memory.readLE s.mem s.pc.toNat 4)
  else .error .fetchBounds

/-- `pc <- pc_fetch + 4` (R82). -/
def State.advance (s : State) : State := s.setPc (s.pc + 4#32)

/-- What the run controller does when a step returns Continue or Finished (R87): it counts the step, and on
Finished it presents the count, the exit call included (R88, C2, D12; log 12). -/
def State.retire (s : State) : State :=
  { s with
    instret := s.instret + 1
    countOut := if s.status = .finished then some (s.instret + 1) else s.countOut }

/-- The run controller's part of a step: a completed step is retired, an error is not counted (R88). -/
def retireResult : Result → Result
  | .next t => .next t.retire
  | .fault f => .fault f
  | .refused r => .refused r

/-- The decode and dispatch stages (R83, R84) under given parameters, with `pc` = `pc_next` in place: an unknown word
is `Error(Decode)` (R64). -/
def dispatchWord (c : Config) (exec : Instr → State → Result) (w : Word) (s : State) : Result :=
  match decodeWith c w with
  | .ok i => exec i s
  | .error _ => raise .decode s

/-- One step (R80) under given parameters, given the dispatch. No step is taken from a state that is not Running
(R21; log 15). -/
def cycleWith (c : Config) (exec : Instr → State → Result) (s : State) : Result :=
  match s.status with
  | .running =>
    match fetch s with
    | .ok w => retireResult (dispatchWord c exec w s.advance)
    | .error r => raise r s
  | .finished => .fault .runEnded
  | .error _ => .fault .runEnded

/-- One step at the default parameters. -/
def cycle (exec : Instr → State → Result) (s : State) : Result := cycleWith params exec s

/-- Store an instruction's bits where `fetch` reads: the low `nbits` of `w`, every bit above them 0, as four
little-endian bytes at `pc` (log 25). -/
def placeWord (s : State) (nbits w : Nat) : State :=
  s.setMem (Memory.writeLE s.mem s.pc.toNat 4 (BitVec.ofNat 32 (w % 2 ^ nbits)))

end Sys2Proof.Machine
end

