-- ==== Sys2Proof/Machine/Flags.lean ====
section
/-! DEFINITION. The hardware has no flags: "comparisons write 0 or 1 to a general register and branches compare two
registers directly" (spec/10_state.md R22). This file holds what other machines would compute into flags: the
comparisons, the value a compare writes, and the shifts. -/

namespace Sys2Proof.Machine

/-- `s(a) < s(b)`: both read as two's-complement numbers (R108, R132, R149); exact, not a wrapped subtraction. -/
def ltSigned (a b : Word) : Bool := decide (a.toInt < b.toInt)

/-- `u(a) < u(b)` (R110, R133, R150). -/
def ltUnsigned (a b : Word) : Bool := decide (a.toNat < b.toNat)

/-- All 32 bits equal (R106). -/
def equalBits (a b : Word) : Bool := decide (a = b)

/-- What a compare instruction writes: 1 if the relation holds, else 0 (R132, R149, D23; log 9). -/
def boolWord (b : Bool) : Word := if b then 1#32 else 0#32

/-- `a << n` (R9): zeros enter at the bottom, bits moved past bit 31 are lost. -/
def shiftLeft (a : Word) (n : BitVec 5) : Word := a <<< n.toNat

/-- `a >>u n` (R9): zeros enter at the top. -/
def shiftRightLogical (a : Word) (n : BitVec 5) : Word := a >>> n.toNat

/-- `a >>s n` (R9): copies of bit 31 enter at the top (log 9). -/
def shiftRightArith (a : Word) (n : BitVec 5) : Word := a.sshiftRight n.toNat

end Sys2Proof.Machine
end

