-- ==== Sys2Proof/Machine/Operands.lean ====
section
/-! DEFINITION. The operand forms of spec/30_encoding.md section 2 as 32-bit values, and the addresses and targets
formed from them. Register arithmetic wraps modulo 2^32 (spec/00_scope.md R9). -/

namespace Sys2Proof.Machine

/-- `sext_N(v)` (R9): the sign bit replicated into all higher bits. -/
def sext {n : Nat} (v : BitVec n) : Word := v.signExtend 32

/-- `zext_N(v)` (R9): zeros in all higher bits. -/
def zext {n : Nat} (v : BitVec n) : Word := v.zeroExtend 32

/-- imm_U: the 20-bit field above twelve zero bits (R57). -/
def immU (imm20 : BitVec 20) : Word := imm20 ++ 0#12

/-- The effective address of a load or store: x[rs1] + sext_12(imm), modulo 2^32 (R35, D9, log 8). -/
def effAddr (s : State) (rs1 : Reg) (imm : BitVec 12) : Word := s.reg rs1 + sext imm

/-- The target of JAL and of a taken branch: the immediate added to `pc_next`, which `pc` holds while an
instruction executes (R82, R100, R105; log 23). -/
def relTarget {n : Nat} (s : State) (imm : BitVec n) : Word := s.pc + sext imm

/-- The target of JALR: x[rs1] + imm_I with bit 0 cleared; the program counter does not enter it (R101). -/
def indirectTarget (s : State) (rs1 : Reg) (imm : BitVec 12) : Word := (s.reg rs1 + sext imm) &&& 0xFFFFFFFE#32

/-- `pc_fetch`, the address of the executing instruction: `pc` holds `pc_next` = pc_fetch + 4 (R82; log 6). -/
def pcFetch (s : State) : Word := s.pc - 4#32

/-- AUIPC's base under each value of the parameter AUIPC_BASE (R96, C1, D11; log 6). -/
def auipcBaseAddr (base : AuipcBase) (s : State) : Word :=
  match base with
  | .fetch => pcFetch s
  | .next => s.pc

/-- The amount of a register shift: the low 5 bits of the second source (R145, D13; log 9). -/
def shiftAmount (v : Word) : BitVec 5 := v.extractLsb' 0 5

end Sys2Proof.Machine
end

