-- ==== Sys2Proof/Machine/AluImmediate.lean ====
section
/-! DEFINITION. The immediate ALU instructions (spec/46_alu_immediate.md R130 to R139). The immediates of the
non-shift ones are sign-extended (R53); a shift's amount is not (R54). -/

namespace Sys2Proof.Machine

/-- ADDI (R131). -/
def execAddi (rd rs1 : Reg) (imm : BitVec 12) (s : State) : Result := .next (s.setReg rd (s.reg rs1 + sext imm))

/-- SLTI (R132). -/
def execSlti (rd rs1 : Reg) (imm : BitVec 12) (s : State) : Result :=
  .next (s.setReg rd (boolWord (ltSigned (s.reg rs1) (sext imm))))

/-- SLTIU (R133): the immediate is sign-extended, then read as unsigned. -/
def execSltiu (rd rs1 : Reg) (imm : BitVec 12) (s : State) : Result :=
  .next (s.setReg rd (boolWord (ltUnsigned (s.reg rs1) (sext imm))))

/-- XORI (R134). -/
def execXori (rd rs1 : Reg) (imm : BitVec 12) (s : State) : Result := .next (s.setReg rd (s.reg rs1 ^^^ sext imm))

/-- ORI (R135). -/
def execOri (rd rs1 : Reg) (imm : BitVec 12) (s : State) : Result := .next (s.setReg rd (s.reg rs1 ||| sext imm))

/-- ANDI (R136). -/
def execAndi (rd rs1 : Reg) (imm : BitVec 12) (s : State) : Result := .next (s.setReg rd (s.reg rs1 &&& sext imm))

/-- SLLI (R137). -/
def execSlli (rd rs1 : Reg) (shamt : BitVec 5) (s : State) : Result :=
  .next (s.setReg rd (shiftLeft (s.reg rs1) shamt))

/-- SRLI (R138). -/
def execSrli (rd rs1 : Reg) (shamt : BitVec 5) (s : State) : Result :=
  .next (s.setReg rd (shiftRightLogical (s.reg rs1) shamt))

/-- SRAI (R139). -/
def execSrai (rd rs1 : Reg) (shamt : BitVec 5) (s : State) : Result :=
  .next (s.setReg rd (shiftRightArith (s.reg rs1) shamt))

end Sys2Proof.Machine
end

