-- ==== Sys2Proof/Machine/AluRegister.lean ====
section
/-! DEFINITION. The register ALU instructions (spec/47_alu_register.md R145 to R155). Both sources are read before
the destination is written (R14). -/

namespace Sys2Proof.Machine

/-- What every register ALU instruction does (R145): read both sources, combine them, write x[rd]. -/
def aluOp (f : Word → Word → Word) (rd rs1 rs2 : Reg) (s : State) : Result :=
  .next (s.setReg rd (f (s.reg rs1) (s.reg rs2)))

/-- ADD (R146). -/
def execAdd (rd rs1 rs2 : Reg) (s : State) : Result := aluOp (fun a b => a + b) rd rs1 rs2 s

/-- SUB (R147). -/
def execSub (rd rs1 rs2 : Reg) (s : State) : Result := aluOp (fun a b => a - b) rd rs1 rs2 s

/-- SLL (R148). -/
def execSll (rd rs1 rs2 : Reg) (s : State) : Result :=
  aluOp (fun a b => shiftLeft a (shiftAmount b)) rd rs1 rs2 s

/-- SLT (R149). -/
def execSlt (rd rs1 rs2 : Reg) (s : State) : Result := aluOp (fun a b => boolWord (ltSigned a b)) rd rs1 rs2 s

/-- SLTU (R150). -/
def execSltu (rd rs1 rs2 : Reg) (s : State) : Result := aluOp (fun a b => boolWord (ltUnsigned a b)) rd rs1 rs2 s

/-- XOR (R151). -/
def execXor (rd rs1 rs2 : Reg) (s : State) : Result := aluOp (fun a b => a ^^^ b) rd rs1 rs2 s

/-- SRL (R152). -/
def execSrl (rd rs1 rs2 : Reg) (s : State) : Result :=
  aluOp (fun a b => shiftRightLogical a (shiftAmount b)) rd rs1 rs2 s

/-- SRA (R153). -/
def execSra (rd rs1 rs2 : Reg) (s : State) : Result :=
  aluOp (fun a b => shiftRightArith a (shiftAmount b)) rd rs1 rs2 s

/-- OR (R154). -/
def execOr (rd rs1 rs2 : Reg) (s : State) : Result := aluOp (fun a b => a ||| b) rd rs1 rs2 s

/-- AND (R155). -/
def execAnd (rd rs1 rs2 : Reg) (s : State) : Result := aluOp (fun a b => a &&& b) rd rs1 rs2 s

end Sys2Proof.Machine
end

