-- ==== Sys2Proof/Machine/Branches.lean ====
section
/-! DEFINITION. The conditional branches (spec/43_branches.md R105 to R111). -/

namespace Sys2Proof.Machine

/-- What every branch does once its condition is known (R105): pc <- pc_next + imm_B, or nothing. -/
def branchIf (taken : Bool) (imm : BitVec 13) (s : State) : Result :=
  .next (if taken then s.setPc (relTarget s imm) else s)

/-- BEQ (R106). -/
def execBeq (rs1 rs2 : Reg) (imm : BitVec 13) (s : State) : Result :=
  branchIf (equalBits (s.reg rs1) (s.reg rs2)) imm s

/-- BNE (R107). -/
def execBne (rs1 rs2 : Reg) (imm : BitVec 13) (s : State) : Result :=
  branchIf (!equalBits (s.reg rs1) (s.reg rs2)) imm s

/-- BLT (R108). -/
def execBlt (rs1 rs2 : Reg) (imm : BitVec 13) (s : State) : Result :=
  branchIf (ltSigned (s.reg rs1) (s.reg rs2)) imm s

/-- BGE (R109): the negation of BLT's condition. -/
def execBge (rs1 rs2 : Reg) (imm : BitVec 13) (s : State) : Result :=
  branchIf (!ltSigned (s.reg rs1) (s.reg rs2)) imm s

/-- BLTU (R110). -/
def execBltu (rs1 rs2 : Reg) (imm : BitVec 13) (s : State) : Result :=
  branchIf (ltUnsigned (s.reg rs1) (s.reg rs2)) imm s

/-- BGEU (R111): the negation of BLTU's condition. -/
def execBgeu (rs1 rs2 : Reg) (imm : BitVec 13) (s : State) : Result :=
  branchIf (!ltUnsigned (s.reg rs1) (s.reg rs2)) imm s

end Sys2Proof.Machine
end

