-- ==== Sys2Proof/Machine/Jumps.lean ====
section
/-! DEFINITION. JAL and JALR (spec/42_jumps.md R100, R101). The link is `pc_next`, which `pc` holds. No target is
checked here: a bad one fails the next fetch (R17, D26; log 7). -/

namespace Sys2Proof.Machine

/-- Write the return address to x[rd] and the target to `pc`; the target is computed from the state before
either write (R14, D14; log 10). -/
def linkAndJump (rd : Reg) (target : Word) (s : State) : Result := .next ((s.setReg rd s.pc).setPc target)

/-- JAL (R100). -/
def execJal (rd : Reg) (imm : BitVec 21) (s : State) : Result := linkAndJump rd (relTarget s imm) s

/-- JALR (R101). -/
def execJalr (rd rs1 : Reg) (imm : BitVec 12) (s : State) : Result := linkAndJump rd (indirectTarget s rs1 imm) s

end Sys2Proof.Machine
end

