-- ==== Sys2Proof/Machine/Loads.lean ====
section
/-! DEFINITION. The loads (spec/44_loads.md R115 to R120). -/

namespace Sys2Proof.Machine

/-- What every load does (R115): the address, the bounds-checked read of `n` bytes, the extension, the register
write, which happens only if the read succeeded. -/
def loadOp (n : Nat) (ext : BitVec (8 * n) → Word) (rd rs1 : Reg) (imm : BitVec 12) (s : State) : Result :=
  match memRead s (effAddr s rs1 imm) n with
  | .ok v => .next (s.setReg rd (ext v))
  | .error r => raise r s

/-- LB (R116). -/
def execLb (rd rs1 : Reg) (imm : BitVec 12) (s : State) : Result := loadOp 1 sext rd rs1 imm s

/-- LH (R117). -/
def execLh (rd rs1 : Reg) (imm : BitVec 12) (s : State) : Result := loadOp 2 sext rd rs1 imm s

/-- LW (R118). -/
def execLw (rd rs1 : Reg) (imm : BitVec 12) (s : State) : Result := loadOp 4 zext rd rs1 imm s

/-- LBU (R119). -/
def execLbu (rd rs1 : Reg) (imm : BitVec 12) (s : State) : Result := loadOp 1 zext rd rs1 imm s

/-- LHU (R120). -/
def execLhu (rd rs1 : Reg) (imm : BitVec 12) (s : State) : Result := loadOp 2 zext rd rs1 imm s

end Sys2Proof.Machine
end

