-- ==== Sys2Proof/Machine/Stores.lean ====
section
/-! DEFINITION. The stores (spec/45_stores.md R125 to R128). -/

namespace Sys2Proof.Machine

/-- What every store does (R125): the address, the bounds check, then the low `n` bytes of x[rs2]. -/
def storeOp (n : Nat) (rs2 rs1 : Reg) (imm : BitVec 12) (s : State) : Result :=
  match memWrite s (effAddr s rs1 imm) n (s.reg rs2) with
  | .ok t => .next t
  | .error r => raise r s

/-- SB (R126). -/
def execSb (rs2 rs1 : Reg) (imm : BitVec 12) (s : State) : Result := storeOp 1 rs2 rs1 imm s

/-- SH (R127). -/
def execSh (rs2 rs1 : Reg) (imm : BitVec 12) (s : State) : Result := storeOp 2 rs2 rs1 imm s

/-- SW (R128). -/
def execSw (rs2 rs1 : Reg) (imm : BitVec 12) (s : State) : Result := storeOp 4 rs2 rs1 imm s

end Sys2Proof.Machine
end

