-- ==== Sys2Proof/Machine/Syscall.lean ====
section
/-! DEFINITION. The environment call and the system-call dispatcher (spec/48_ecall_syscall.md R160 to R166). It is
no trap: no state is saved, no mode changes, no register is written (R165, R177). -/

namespace Sys2Proof.Machine

/-- System call EXIT (R162): the run status becomes Finished and nothing else changes here; the run controller
counts the call and presents the count (R88, R89). -/
def exitCall (s : State) : Result := .next (s.setStatus .finished)

/-- System call 1, write (R163): the exact bytes of the buffer are appended to the output stream (D17, log 13), or
nothing is and the call is fatal. -/
def writeCall (ptr len : Word) (s : State) : Result :=
  match readBuffer s ptr len with
  | .ok bs => .next (s.emit bs)
  | .error r => raise r s

/-- The dispatcher under given parameters (R160): by the number in x[SYSCALL_NUM_REG], exit, write or an error. -/
def ecallWith (c : Config) (s : State) : Result :=
  if s.reg c.syscallNumReg = c.exitSentinel then exitCall s
  else if s.reg c.syscallNumReg = sysWriteNum then writeCall (s.reg c.writePtrReg) (s.reg c.writeLenReg) s
  else raise .syscall s

/-- ECALL (R160) with the default registers and sentinel (D3, D4, D5; log 3, 4). -/
def execEcall (s : State) : Result := ecallWith params s

end Sys2Proof.Machine
end

