-- ==== Sys2Proof/Machine/UpperImmediate.lean ====
section
/-! DEFINITION. LUI and AUIPC (spec/41_upper_immediate.md R95, R96). While an instruction executes, `pc` already
holds `pc_next` (R82). -/

namespace Sys2Proof.Machine

/-- LUI (R95): x[rd] <- imm_U. -/
def execLui (rd : Reg) (imm20 : BitVec 20) (s : State) : Result := .next (s.setReg rd (immU imm20))

/-- AUIPC under a given AUIPC_BASE (R96): x[rd] <- base + imm_U. -/
def auipcWith (base : AuipcBase) (rd : Reg) (imm20 : BitVec 20) (s : State) : Result :=
  .next (s.setReg rd (auipcBaseAddr base s + immU imm20))

/-- AUIPC (R96) with the default base, `pc_fetch` (D11, log 6). -/
def execAuipc (rd : Reg) (imm20 : BitVec 20) (s : State) : Result := auipcWith params.auipcBase rd imm20 s

end Sys2Proof.Machine
end

