-- ==== Sys2Proof/Machine/Step.lean ====
section
/-! DEFINITION. One step of the machine (spec/40_step_cycle.md R80): the cycle of Machine/Cycle.lean over the
dispatch of Machine/Dispatch.lean. -/

namespace Sys2Proof.Machine

/-- One step. -/
def step (s : State) : Host.Outcome State Fault Refusal := cycle exec s

/-- The state with an instruction's bits stored at the program counter, from where the next step fetches it. A
program comes to run by the loader, from outside (log 17, 25); this stands for that load. -/
def State.withFetchWord (s : State) (nbits w : Nat) : State := placeWord s nbits w

end Sys2Proof.Machine
end

