-- ==== Sys2Proof/Machine/Loader.lean ====
section
/-! DEFINITION. The Program Loader (spec/70_reset_and_hazards.md R190 to R193): from one blob on IMAGE_IN, the state
a run begins in, or LoaderError. -/

namespace Sys2Proof.Machine

/-- The number a list of bytes holds, little-endian (R190). -/
def natOfBytesLE : List Byte → Nat
  | [] => 0
  | b :: bs => b.toNat + 256 * natOfBytesLE bs

/-- The image: the blob without its trailing four bytes (R191). -/
def imageOf (blob : List Byte) : List Byte := blob.take (blob.length - trailerLen)

/-- The BSS request: the blob's last four bytes, little-endian (R190). -/
def bssRequest (blob : List Byte) : Nat := natOfBytesLE (blob.drop (blob.length - trailerLen))

/-- BSS_LEN: the request, silently clamped to 16 MiB (R191). -/
def bssLen (blob : List Byte) : Nat := min (bssRequest blob) bssMax

/-- MEM_SIZE = IMAGE_LEN + BSS_LEN (R191). -/
def loadedSize (blob : List Byte) : Nat := (imageOf blob).length + bssLen blob

/-- The loader under given parameters (R191, R192): LoaderError for a blob shorter than 4 bytes (D15) or a memory
of 2^32 bytes or more (D16; log 18); else the image at address 0, zero bytes above it, and the boot state of
R193. -/
def loadWith (c : Config) (blob : List Byte) : Result :=
  if blob.length < trailerLen then .refused .loaderError
  else if 2 ^ 32 ≤ loadedSize blob then .refused .loaderError
  else .next (State.boot c (Memory.ofBytes 0 (imageOf blob)) (BitVec.ofNat 32 (loadedSize blob)))

/-- The loader at the default parameters. -/
def load (blob : List Byte) : Result := loadWith params blob

end Sys2Proof.Machine
end

