-- ==== Sys2Proof/Machine/Parametric.lean ====
section
/-! DEFINITION. The dispatch and the step under any parameters of spec/00_scope.md R6, beside `exec` and `step`, which
are theirs at the defaults (log 24). -/

namespace Sys2Proof.Machine

/-- The dispatch stage (R84) under given parameters: AUIPC_BASE and the system-call registers and sentinel reach these
two instructions, and no parameter reaches another one's meaning. -/
def execWith (c : Config) (i : Instr) (s : State) : Result :=
  match i with
  | .auipc rd imm20 => auipcWith c.auipcBase rd imm20 s
  | .ecall => ecallWith c s
  | .lui _ _ | .jal _ _ | .jalr _ _ _ | .beq _ _ _ | .bne _ _ _ | .blt _ _ _ | .bge _ _ _ | .bltu _ _ _
  | .bgeu _ _ _ | .lb _ _ _ | .lh _ _ _ | .lw _ _ _ | .lbu _ _ _ | .lhu _ _ _ | .sb _ _ _ | .sh _ _ _ | .sw _ _ _
  | .addi _ _ _ | .slti _ _ _ | .sltiu _ _ _ | .xori _ _ _ | .ori _ _ _ | .andi _ _ _ | .slli _ _ _ | .srli _ _ _
  | .srai _ _ _ | .add _ _ _ | .sub _ _ _ | .sll _ _ _ | .slt _ _ _ | .sltu _ _ _ | .xor _ _ _ | .srl _ _ _
  | .sra _ _ _ | .or _ _ _ | .and _ _ _ => exec i s

/-- One step (R80) under given parameters. -/
def stepWith (c : Config) (s : State) : Result := cycleWith c (execWith c) s

end Sys2Proof.Machine
end

