-- ==== Sys2Proof/Machine/Run.lean ====
section
/-! DEFINITION. The run controller (spec/40_step_cycle.md R87 to R90) and the STATUS interface (spec/00_scope.md R8).
Fuel is the model's own: running out of it leaves the run status Running, which is neither Finished nor Error
(R90, D24; log 22). -/

namespace Sys2Proof.Machine

/-- What a step returns on STATUS (R80, R85): all error reasons are one status outward (R172). -/
inductive StepStatus where
  /-- Continue. -/
  | goesOn
  /-- Finished. -/
  | finished
  /-- Error. -/
  | error
  deriving DecidableEq, Repr

/-- The status of a step's outcome; a step that is not taken returns none. -/
def statusOf : Result → Option StepStatus
  | .next t => some (if t.status = .finished then .finished else .goesOn)
  | .fault (.error _ _) => some .error
  | .fault .runEnded => none
  | .refused _ => none

/-- The run from a state (R87) by a given step, for at most `fuel` steps: the state it is in when it ends or the fuel
is out. -/
def runBy (step : State → Result) : Nat → State → State
  | 0, s => s
  | fuel + 1, s =>
    match step s with
    | .next t => runBy step fuel t
    | .fault (.error _ after) => after
    | .fault .runEnded => s
    | .refused _ => s

/-- The run from a state under given parameters. -/
def runForWith (c : Config) (fuel : Nat) (s : State) : State := runBy (stepWith c) fuel s

/-- The run from a state at the default parameters. -/
def runFor (fuel : Nat) (s : State) : State := runBy step fuel s

/-- Load a blob and run it (R87, R193) under given parameters, for at most `fuel` steps. -/
def runBlobWith (c : Config) (fuel : Nat) (blob : List Byte) : Result :=
  match loadWith c blob with
  | .next s => .next (runForWith c fuel s)
  | .fault f => .fault f
  | .refused r => .refused r

/-- Load a blob and run it at the default parameters. -/
def runBlob (fuel : Nat) (blob : List Byte) : Result :=
  match load blob with
  | .next s => .next (runFor fuel s)
  | .fault f => .fault f
  | .refused r => .refused r

end Sys2Proof.Machine
end

