-- ==== Sys2Proof/Safety.lean ====
section
/-! DEFINITION. What counts as a good state and as a safe run, in the terms the statements use. -/

namespace Sys2Proof.Machine

/-- COUNT_OUT presents the counter once the run is Finished, and nothing before (R87, R89). -/
abbrev State.CountPresented (s : State) : Prop :=
  s.countOut = if s.status = .finished then some s.instret else none

/-- The program counter is even: JALR clears bit 0 and every relative immediate is even (R17). -/
abbrev State.PcEven (s : State) : Prop := s.pc.getLsbD 0 = false

/-- What every state of a run keeps: memory in canonical form and inside MEM_SIZE (R18), slot 0 of the register
file zero (R12), the program counter even (R17), the count presented exactly on Finished (R89). -/
abbrev State.Inv (s : State) : Prop :=
  Memory.wf s.mem = true ∧ Memory.below s.memSize.toNat s.mem = true ∧ s.regs[0] = 0#32 ∧ s.PcEven ∧ s.CountPresented

/-- The step completes: Continue or Finished, no error and no stop. -/
def StepCompletes (s : State) : Prop := ∃ t, step s = .next t

/-- A clean end: the run, given `fuel` steps, is Finished, and COUNT_OUT presents `count` (R89). -/
def EndsCleanly (fuel : Nat) (s : State) (count : Nat) : Prop :=
  (runFor fuel s).status = .finished ∧ (runFor fuel s).countOut = some count

/-- A safe run of a state: whatever the fuel, the run status is never an error (R173). -/
def RunSafe (s : State) : Prop := ∀ fuel reason, (runFor fuel s).status ≠ .error reason

end Sys2Proof.Machine
end

