-- ==== Sys2Proof/Certificates/Slice0/Obligations.lean ====
section
/-! DEFINITION. The statements for the provers, from the numbered rules of spec/. Where a docstring says "the spec's
decision D<n>" the clause rests on a choice of spec/92_eei_decisions.md and not on the source; where it says
"log <n>", on a choice of this model. In a statement about `exec`, the state given is that of the dispatch stage:
its `pc` is `pc_next`, the address of the instruction plus 4 (R82). -/

open Sys2Proof Sys2Proof.Machine

namespace Sys2Proof.Slice0

/-! ### What the statements are made of -/

/-- Everything but the registers and the program counter is as before: every byte of memory, MEM_SIZE, the counter,
the output, the run status, the presented count. -/
def SameElse (s t : State) : Prop :=
  (∀ a, t.byte a = s.byte a) ∧ t.memSize = s.memSize ∧ t.instret = s.instret ∧ t.out = s.out
    ∧ t.status = s.status ∧ t.countOut = s.countOut

/-- Every register but `rd` reads as before. -/
def RegsExcept (rd : Reg) (s t : State) : Prop := ∀ r, r ≠ rd → t.reg r = s.reg r

/-- The instruction answers a next state in which `rd` holds `v` (0 for register 0), every other register, the
program counter, every byte of memory and everything else is as before. -/
def WritesReg (i : Instr) (rd : Reg) (v : Word) (s : State) : Prop :=
  ∃ t, exec i s = .next t ∧ t.reg rd = (if rd = 0#5 then 0#32 else v) ∧ RegsExcept rd s t ∧ t.pc = s.pc
    ∧ SameElse s t

/-- The instruction answers a next state in which `rd` holds `pc_next` (0 for register 0) and the program counter
`target`; all else is as before. -/
def LinksAndJumps (i : Instr) (rd : Reg) (target : Word) (s : State) : Prop :=
  ∃ t, exec i s = .next t ∧ t.reg rd = (if rd = 0#5 then 0#32 else s.pc) ∧ RegsExcept rd s t ∧ t.pc = target
    ∧ SameElse s t

/-- The instruction answers a next state in which the program counter is `pc_next` plus the immediate if the
condition holds and `pc_next` if it does not; no register and nothing else has changed. -/
def Branches (i : Instr) (taken : Prop) (imm : BitVec 13) (s : State) : Prop :=
  ∃ t, exec i s = .next t ∧ (taken → t.pc = BitVec.ofInt 32 (s.pc.toNat + imm.toInt)) ∧ (¬ taken → t.pc = s.pc)
    ∧ (∀ r, t.reg r = s.reg r) ∧ SameElse s t

/-- The instruction answers a next state in which byte `k` of `v` stands at `a + k` for each `k` below `n`, and every
other byte, every register, the program counter and everything else is as before. -/
def StoresBytes (i : Instr) (a n : Nat) (v : Word) (s : State) : Prop :=
  ∃ t, exec i s = .next t ∧ (∀ k, k < n → t.byte (a + k) = v.extractLsb' (8 * k) 8)
    ∧ (∀ b, ¬ (a ≤ b ∧ b < a + n) → t.byte b = s.byte b) ∧ (∀ r, t.reg r = s.reg r) ∧ t.pc = s.pc
    ∧ t.memSize = s.memSize ∧ t.instret = s.instret ∧ t.out = s.out ∧ t.status = s.status ∧ t.countOut = s.countOut

/-- The instruction ends the step with the error, having changed nothing but the run status. -/
def Raises (i : Instr) (r : ErrorReason) (s : State) : Prop :=
  exec i s = .fault (.error r { s with status := .error r })

/-- The numbers of the table tell its rows apart: the nine opcodes and the opcode of the environment call's word are
ten different numbers (R60), the selectors within each family are different (R61), the two right shifts, which share
theirs, have different top 7 bits (R62), and the register ALU's pairs are different (R63). -/
def DistinctNumbers (c : Config) : Prop :=
  [c.opcLui, c.opcAuipc, c.opcJal, c.opcJalr, c.opcBranch, c.opcLoad, c.opcStore, c.opcOpImm, c.opcOp,
      opcodeOf c.ecallWord].Nodup
    ∧ [c.branchSel.beq, c.branchSel.bne, c.branchSel.blt, c.branchSel.bge, c.branchSel.bltu, c.branchSel.bgeu].Nodup
    ∧ [c.loadSel.lb, c.loadSel.lh, c.loadSel.lw, c.loadSel.lbu, c.loadSel.lhu].Nodup
    ∧ [c.storeSel.sb, c.storeSel.sh, c.storeSel.sw].Nodup
    ∧ [c.opImmSel.addi, c.opImmSel.slti, c.opImmSel.sltiu, c.opImmSel.xori, c.opImmSel.ori, c.opImmSel.andi,
      c.opImmSel.shiftLeft, c.opImmSel.shiftRight].Nodup
    ∧ c.opImmSel.srliTop ≠ c.opImmSel.sraiTop
    ∧ [c.opSel.add, c.opSel.sub, c.opSel.sll, c.opSel.slt, c.opSel.sltu, c.opSel.xor, c.opSel.srl, c.opSel.sra,
      c.opSel.or, c.opSel.and].Nodup

/-- The fields and the unscrambled immediates of a word's instruction, as R51, R53, R54 and R57 place them: `imm_I`
as a 32-bit value is word[31:20] sign-extended, `imm_U` is the word with its low 12 bits zero. -/
def PlainFields (w : Word) : Instr → Prop
  | .lui rd imm20 | .auipc rd imm20 =>
    rd = w.extractLsb' 7 5 ∧ immU imm20 = w.extractLsb' 12 20 ++ 0#12
  | .jal rd _ => rd = w.extractLsb' 7 5
  | .beq rs1 rs2 _ | .bne rs1 rs2 _ | .blt rs1 rs2 _ | .bge rs1 rs2 _ | .bltu rs1 rs2 _ | .bgeu rs1 rs2 _
  | .sb rs2 rs1 _ | .sh rs2 rs1 _ | .sw rs2 rs1 _ =>
    rs1 = w.extractLsb' 15 5 ∧ rs2 = w.extractLsb' 20 5
  | .jalr rd rs1 imm | .lb rd rs1 imm | .lh rd rs1 imm | .lw rd rs1 imm | .lbu rd rs1 imm | .lhu rd rs1 imm
  | .addi rd rs1 imm | .slti rd rs1 imm | .sltiu rd rs1 imm | .xori rd rs1 imm | .ori rd rs1 imm
  | .andi rd rs1 imm =>
    rd = w.extractLsb' 7 5 ∧ rs1 = w.extractLsb' 15 5
      ∧ sext imm = (w.extractLsb' 31 1).signExtend 20 ++ w.extractLsb' 20 12
      ∧ -2048 ≤ (sext imm).toInt ∧ (sext imm).toInt ≤ 2047
  | .slli rd rs1 shamt | .srli rd rs1 shamt | .srai rd rs1 shamt =>
    rd = w.extractLsb' 7 5 ∧ rs1 = w.extractLsb' 15 5 ∧ shamt = w.extractLsb' 20 5 ∧ shamt.toNat ≤ 31
  | .add rd rs1 rs2 | .sub rd rs1 rs2 | .sll rd rs1 rs2 | .slt rd rs1 rs2 | .sltu rd rs1 rs2 | .xor rd rs1 rs2
  | .srl rd rs1 rs2 | .sra rd rs1 rs2 | .or rd rs1 rs2 | .and rd rs1 rs2 =>
    rd = w.extractLsb' 7 5 ∧ rs1 = w.extractLsb' 15 5 ∧ rs2 = w.extractLsb' 20 5
  | .ecall => True

/-- The split and scrambled immediates of a word's instruction as signed numbers, each piece of the word weighted by
the place of its lowest immediate bit (R55, R56, R58). -/
def SplitImmediate (w : Word) : Instr → Prop
  | .sb _ _ imm | .sh _ _ imm | .sw _ _ imm =>
    (sext imm).toInt = 32 * (w.extractLsb' 25 7).toInt + (w.extractLsb' 7 5).toNat
  | .beq _ _ imm | .bne _ _ imm | .blt _ _ imm | .bge _ _ imm | .bltu _ _ imm | .bgeu _ _ imm =>
    (sext imm).toInt = -4096 * (w.extractLsb' 31 1).toNat + 2048 * (w.extractLsb' 7 1).toNat
      + 32 * (w.extractLsb' 25 6).toNat + 2 * (w.extractLsb' 8 4).toNat
  | .jal _ imm =>
    (sext imm).toInt = -1048576 * (w.extractLsb' 31 1).toNat + 4096 * (w.extractLsb' 12 8).toNat
      + 2048 * (w.extractLsb' 20 1).toNat + 2 * (w.extractLsb' 21 10).toNat
  | .lui _ _ | .auipc _ _ | .jalr _ _ _ | .lb _ _ _ | .lh _ _ _ | .lw _ _ _ | .lbu _ _ _ | .lhu _ _ _
  | .addi _ _ _ | .slti _ _ _ | .sltiu _ _ _ | .xori _ _ _ | .ori _ _ _ | .andi _ _ _ | .slli _ _ _ | .srli _ _ _
  | .srai _ _ _ | .add _ _ _ | .sub _ _ _ | .sll _ _ _ | .slt _ _ _ | .sltu _ _ _ | .xor _ _ _ | .srl _ _ _
  | .sra _ _ _ | .or _ _ _ | .and _ _ _ | .ecall => True

/-- The words of R64, cases (a) to (i), as conditions on the opcode, `funct3` and `funct7` numbers. -/
def UnknownWord (w : Word) : Prop :=
  let op := (w.extractLsb' 0 7).toNat
  let f3 := (w.extractLsb' 12 3).toNat
  let f7 := (w.extractLsb' 25 7).toNat
  op ∉ [0x37, 0x17, 0x6F, 0x67, 0x63, 0x03, 0x23, 0x13, 0x33, 0x73]
    ∨ (op = 0x73 ∧ w ≠ 0x00000073#32)
    ∨ (op = 0x67 ∧ f3 ≠ 0)
    ∨ (op = 0x63 ∧ (f3 = 2 ∨ f3 = 3))
    ∨ (op = 0x03 ∧ (f3 = 3 ∨ f3 = 6 ∨ f3 = 7))
    ∨ (op = 0x23 ∧ 3 ≤ f3)
    ∨ (op = 0x13 ∧ f3 = 1 ∧ f7 ≠ 0x00)
    ∨ (op = 0x13 ∧ f3 = 5 ∧ f7 ≠ 0x00 ∧ f7 ≠ 0x20)
    ∨ (op = 0x33 ∧ ¬ (f7 = 0x00 ∨ (f7 = 0x20 ∧ (f3 = 0 ∨ f3 = 5))))

/-- The register an instruction names as its destination. -/
def destOf : Instr → Option Reg
  | .lui rd _ | .auipc rd _ | .jal rd _ | .jalr rd _ _ | .lb rd _ _ | .lh rd _ _ | .lw rd _ _ | .lbu rd _ _
  | .lhu rd _ _ | .addi rd _ _ | .slti rd _ _ | .sltiu rd _ _ | .xori rd _ _ | .ori rd _ _ | .andi rd _ _
  | .slli rd _ _ | .srli rd _ _ | .srai rd _ _ | .add rd _ _ | .sub rd _ _ | .sll rd _ _ | .slt rd _ _
  | .sltu rd _ _ | .xor rd _ _ | .srl rd _ _ | .sra rd _ _ | .or rd _ _ | .and rd _ _ => some rd
  | .beq _ _ _ | .bne _ _ _ | .blt _ _ _ | .bge _ _ _ | .bltu _ _ _ | .bgeu _ _ _ | .sb _ _ _ | .sh _ _ _
  | .sw _ _ _ | .ecall => none

/-- Where a store stores, executed in a given state: the address its meaning computes, and the width in bytes. -/
def storeRange (s : State) : Instr → Option (Nat × Nat)
  | .sb _ rs1 imm => some ((effAddr s rs1 imm).toNat, 1)
  | .sh _ rs1 imm => some ((effAddr s rs1 imm).toNat, 2)
  | .sw _ rs1 imm => some ((effAddr s rs1 imm).toNat, 4)
  | .lui _ _ | .auipc _ _ | .jal _ _ | .jalr _ _ _ | .beq _ _ _ | .bne _ _ _ | .blt _ _ _ | .bge _ _ _
  | .bltu _ _ _ | .bgeu _ _ _ | .lb _ _ _ | .lh _ _ _ | .lw _ _ _ | .lbu _ _ _ | .lhu _ _ _ | .addi _ _ _
  | .slti _ _ _ | .sltiu _ _ _ | .xori _ _ _ | .ori _ _ _ | .andi _ _ _ | .slli _ _ _ | .srli _ _ _ | .srai _ _ _
  | .add _ _ _ | .sub _ _ _ | .sll _ _ _ | .slt _ _ _ | .sltu _ _ _ | .xor _ _ _ | .srl _ _ _ | .sra _ _ _
  | .or _ _ _ | .and _ _ _ | .ecall => none

/-- What a load reads, executed in a given state: the address its meaning computes, and the width in bytes. -/
def loadRange (s : State) : Instr → Option (Nat × Nat)
  | .lb _ rs1 imm | .lbu _ rs1 imm => some ((effAddr s rs1 imm).toNat, 1)
  | .lh _ rs1 imm | .lhu _ rs1 imm => some ((effAddr s rs1 imm).toNat, 2)
  | .lw _ rs1 imm => some ((effAddr s rs1 imm).toNat, 4)
  | .lui _ _ | .auipc _ _ | .jal _ _ | .jalr _ _ _ | .beq _ _ _ | .bne _ _ _ | .blt _ _ _ | .bge _ _ _
  | .bltu _ _ _ | .bgeu _ _ _ | .sb _ _ _ | .sh _ _ _ | .sw _ _ _ | .addi _ _ _
  | .slti _ _ _ | .sltiu _ _ _ | .xori _ _ _ | .ori _ _ _ | .andi _ _ _ | .slli _ _ _ | .srli _ _ _ | .srai _ _ _
  | .add _ _ _ | .sub _ _ _ | .sll _ _ _ | .slt _ _ _ | .sltu _ _ _ | .xor _ _ _ | .srl _ _ _ | .sra _ _ _
  | .or _ _ _ | .and _ _ _ | .ecall => none

/-- What the instruction decoded at the program counter of a state is. -/
def Fetches (s : State) (i : Instr) : Prop := ∃ w, fetch s = .ok w ∧ decode w = .ok i

/-- A function of states applied to what a step answers. -/
def mapResult (f : State → State) : Result → Result
  | .next t => .next (f t)
  | .fault (.error r t) => .fault (.error r (f t))
  | .fault .runEnded => .fault .runEnded
  | .refused r => .refused r

/-- What each error reason says about the step that raised it (R171). -/
def CauseOf (s : State) : ErrorReason → Prop
  | .fetchMisaligned => s.pc.toNat % 4 ≠ 0
  | .fetchBounds => s.pc.toNat % 4 = 0 ∧ s.memSize.toNat < s.pc.toNat + 4
  | .decode => ∃ w x, fetch s = .ok w ∧ decode w = .error x
  | .dataBounds => ∃ i a n, Fetches s i ∧ (loadRange s i = some (a, n) ∨ storeRange s i = some (a, n))
      ∧ s.memSize.toNat < a + n
  | .syscall => Fetches s .ecall ∧ s.reg params.syscallNumReg ≠ params.exitSentinel
      ∧ s.reg params.syscallNumReg ≠ 1#32
  | .syscallBounds => Fetches s .ecall ∧ s.reg params.syscallNumReg = 1#32
      ∧ s.memSize.toNat < (s.reg params.writePtrReg).toNat + (s.reg params.writeLenReg).toNat

/-- An error of the fetch stage, before `pc` is advanced. -/
def isFetchError : ErrorReason → Bool
  | .fetchMisaligned | .fetchBounds => true
  | .decode | .dataBounds | .syscallBounds | .syscall => false

/-- `st` is the step cycle of R80 over the decoder `dec` and the dispatch `ex`. From a Running state:
a fetched word that decodes runs its instruction on the state with `pc` advanced by 4 (R82, R84), and a next state is
retired: counted, and, if it finished, the count presented (R87, R88), while an error is passed on; a fetched word that
does not decode is `Error(Decode)`, fatal and not skipped, with `pc` at `pc_next` (R64, R80, R84); and a failed fetch
is its own error, with `pc` where it was (R81). -/
def StepCycle (dec : Word → Except Reject Instr) (ex : Instr → State → Result) (st : State → Result) : Prop :=
  ∀ s, s.status = .running →
    (∀ w, fetch s = .ok w →
      (∀ i, dec w = .ok i →
        (∀ u, ex i { s with pc := s.pc + 4#32 } = .next u →
          st s = .next { u with
            instret := u.instret + 1
            countOut := if u.status = .finished then some (u.instret + 1) else u.countOut })
        ∧ (∀ r a, ex i { s with pc := s.pc + 4#32 } = .fault (.error r a) → st s = .fault (.error r a)))
      ∧ (∀ x, dec w = .error x →
        st s = .fault (.error .decode { s with pc := s.pc + 4#32, status := .error .decode })))
    ∧ (∀ r, fetch s = .error r → st s = .fault (.error r { s with status := .error r }))

end Sys2Proof.Slice0

open Sys2Proof.Slice0

/-! ### Encoding -/

/-- Decoding an encoded well-formed instruction gives it back, whatever numbers the opcodes, the function selectors, the
top-7-bit values and the ECALL word have, as long as they tell the rows apart, and the defaults do (R52, R59 to R63).
The numbers are the spec's decisions D1 and D2 (log 1, 2), the layouts of the split immediates D21. -/
def Obligations.DecodeOfEncodeIsTheInstruction : Prop :=
  (∀ (c : Config) (i : Instr), DistinctNumbers c → i.wellFormed = true → decodeWith c (encodeWith c i) = .ok i)
    ∧ DistinctNumbers params

/-- A decoded instruction is well formed, and its encoding is the word it was decoded from: no bit of a valid word is
ignored (R66, the spec's own derivation). -/
def Obligations.EncodeOfDecodeIsTheWord : Prop :=
  ∀ (c : Config) (w : Word) (i : Instr), decodeWith c w = .ok i → i.wellFormed = true ∧ encodeWith c i = w

/-- A word is the instruction of a row if and only if (word AND mask) = match; the rows are disjoint (R61). The
numbers are the spec's decisions D1 and D2. -/
def Obligations.DecodingFollowsTheOpcodeTable : Prop :=
  (∀ w i, decode w = .ok i → w &&& rowMask i = rowMatch i)
    ∧ (∀ w i, w &&& rowMask i = rowMatch i → ∃ j, decode w = .ok j ∧ rowMask j = rowMask i ∧ rowMatch j = rowMatch i)

/-- The words that are no instruction are exactly the cases (a) to (i) of R64 (numbers: the spec's decisions D1, D2,
D25, D29). -/
def Obligations.UnknownWordsAreTheNineCases : Prop :=
  ∀ w, (∃ x, decode w = .error x) ↔ UnknownWord w

/-- The operands of a decoded instruction are the word's fields: rd = word[11:7], rs1 = word[19:15],
rs2 = word[24:20]; imm_I is the sign-extended word[31:20], -2048 to 2047 (R53); shamt is word[24:20], 0 to 31 (R54);
imm_U is word[31:12] above twelve zeros (R57). Whatever the opcode and selector numbers. -/
def Obligations.PlainFieldsAreTheWordsBits : Prop :=
  ∀ (c : Config) (w : Word) (i : Instr), decodeWith c w = .ok i → PlainFields w i

/-- The split immediates of the stores, the branches and JAL as signed numbers (R55, R56, R58; the widths and the
order of the pieces are the spec's decision D21). -/
def Obligations.SplitImmediatesAreReassembled : Prop :=
  ∀ (c : Config) (w : Word) (i : Instr), decodeWith c w = .ok i → SplitImmediate w i

/-- Words of the spec's examples, one of each of the ten families of R60, decode to what they stand for, and a word of
the environment call's opcode that is not the ECALL word does not (numbers: D1, D2). -/
def Obligations.ExampleWordsDecode : Prop :=
  decode 0x80FF82B7#32 = .ok (.lui 5#5 0x80FF8#20)
    ∧ decode 0x00000517#32 = .ok (.auipc 10#5 0#20)
    ∧ decode 0x010000EF#32 = .ok (.jal 1#5 16#21)
    ∧ decode 0x00008067#32 = .ok (.jalr 0#5 1#5 0#12)
    ∧ decode 0xFE059AE3#32 = .ok (.bne 11#5 0#5 (BitVec.ofInt 13 (-12)))
    ∧ decode 0x00211E03#32 = .ok (.lh 28#5 2#5 2#12)
    ∧ decode 0x005102A3#32 = .ok (.sb 5#5 2#5 5#12)
    ∧ decode 0xFFF30293#32 = .ok (.addi 5#5 6#5 (BitVec.ofInt 12 (-1)))
    ∧ decode 0x407352B3#32 = .ok (.sra 5#5 6#5 7#5)
    ∧ decode 0x00000073#32 = .ok .ecall
    ∧ decode 0x00100073#32 = .error .notTheEcallWord

/-! ### The upper immediates, the jumps and the branches -/

/-- LUI writes the instruction word with its low 12 bits cleared, and changes nothing else (R95). -/
def Obligations.LuiWritesTheUpperImmediate : Prop :=
  ∀ s rd imm20, WritesReg (.lui rd imm20) rd (encode (.lui rd imm20) &&& 0xFFFFF000#32) s
    ∧ WritesReg (.lui rd imm20) rd (BitVec.ofNat 32 (imm20.toNat * 4096)) s

/-- AUIPC writes the address of the AUIPC instruction itself plus the upper immediate, modulo 2^32, and changes
nothing else; with AUIPC_BASE = next it would add to the following address (R96). The default base is the spec's
resolution C1, decision D11 (log 6). -/
def Obligations.AuipcAddsItsOwnAddress : Prop :=
  ∀ s pcFetch rd imm20, s.pc = pcFetch + 4#32 →
    WritesReg (.auipc rd imm20) rd (BitVec.ofNat 32 (pcFetch.toNat + imm20.toNat * 4096)) s
      ∧ exec (.auipc rd imm20) s = auipcWith .fetch rd imm20 s
      ∧ auipcWith .next rd imm20 s = .next (s.setReg rd (BitVec.ofNat 32 (s.pc.toNat + imm20.toNat * 4096)))

/-- JAL writes `pc_next` to rd and sets the program counter to `pc_next` plus the 21-bit signed immediate, modulo
2^32; nothing else changes, and no target is an error (R100). -/
def Obligations.JalLinksAndJumps : Prop :=
  ∀ s rd imm, LinksAndJumps (.jal rd imm) rd (BitVec.ofInt 32 (s.pc.toNat + imm.toInt)) s

/-- JALR writes `pc_next` to rd and sets the program counter to x[rs1] plus the 12-bit signed immediate, modulo 2^32,
with bit 0 cleared; x[rs1] is the old value also when rd = rs1 (R101; that the read comes first is the spec's
decision D14, that no target is checked D26). -/
def Obligations.JalrLinksAndJumps : Prop :=
  ∀ s rd rs1 imm, LinksAndJumps (.jalr rd rs1 imm) rd
    (BitVec.ofNat 32 (2 * ((BitVec.ofInt 32 ((s.reg rs1).toNat + imm.toInt)).toNat / 2))) s

/-- Each conditional branch sets the program counter to `pc_next` plus the 13-bit signed immediate exactly when its
condition holds on the two registers, read as equal bits, as two's-complement or as unsigned numbers (R105 to
R111). -/
def Obligations.BranchesDecideAndJump : Prop :=
  ∀ s rs1 rs2 imm,
    Branches (.beq rs1 rs2 imm) (s.reg rs1 = s.reg rs2) imm s
    ∧ Branches (.bne rs1 rs2 imm) (s.reg rs1 ≠ s.reg rs2) imm s
    ∧ Branches (.blt rs1 rs2 imm) ((s.reg rs1).toInt < (s.reg rs2).toInt) imm s
    ∧ Branches (.bge rs1 rs2 imm) ((s.reg rs1).toInt ≥ (s.reg rs2).toInt) imm s
    ∧ Branches (.bltu rs1 rs2 imm) ((s.reg rs1).toNat < (s.reg rs2).toNat) imm s
    ∧ Branches (.bgeu rs1 rs2 imm) ((s.reg rs1).toNat ≥ (s.reg rs2).toNat) imm s

/-! ### Loads and stores -/

/-- The address of a load or store is x[rs1] plus the signed immediate, modulo 2^32 (R35; that it wraps is the
spec's decision D9, log 8). -/
def Obligations.EffectiveAddressWraps : Prop :=
  ∀ s rs1 imm, ((effAddr s rs1 imm).toNat : Int) = (((s.reg rs1).toNat : Int) + imm.toInt) % 2 ^ 32

/-- A load in bounds writes the little-endian value at its address to rd, LB and LH sign-extended, LBU and LHU
zero-extended, and changes nothing else; no alignment is asked (R115 to R120; bounds and alignment are the spec's
decisions D9, D10). -/
def Obligations.LoadsReadAndExtend : Prop :=
  ∀ s rd rs1 imm,
    ((effAddr s rs1 imm).toNat + 1 ≤ s.memSize.toNat →
      WritesReg (.lb rd rs1 imm) rd (BitVec.ofInt 32 (s.byte (effAddr s rs1 imm).toNat).toInt) s
      ∧ WritesReg (.lbu rd rs1 imm) rd (BitVec.ofNat 32 (s.byte (effAddr s rs1 imm).toNat).toNat) s)
    ∧ ((effAddr s rs1 imm).toNat + 2 ≤ s.memSize.toNat →
      WritesReg (.lh rd rs1 imm) rd (BitVec.ofInt 32 (256 * (s.byte ((effAddr s rs1 imm).toNat + 1)).toInt
          + (s.byte (effAddr s rs1 imm).toNat).toNat)) s
      ∧ WritesReg (.lhu rd rs1 imm) rd (BitVec.ofNat 32 (256 * (s.byte ((effAddr s rs1 imm).toNat + 1)).toNat
          + (s.byte (effAddr s rs1 imm).toNat).toNat)) s)
    ∧ ((effAddr s rs1 imm).toNat + 4 ≤ s.memSize.toNat →
      WritesReg (.lw rd rs1 imm) rd (s.byte ((effAddr s rs1 imm).toNat + 3) ++ s.byte ((effAddr s rs1 imm).toNat + 2)
        ++ s.byte ((effAddr s rs1 imm).toNat + 1) ++ s.byte (effAddr s rs1 imm).toNat) s)

/-- A load or store with any byte out of bounds is `Error(DataBounds)`: no register and no byte is written, not even
for rd = 0 (R32 to R34; that the sum does not wrap is the spec's decision D9, that nothing is written D18). -/
def Obligations.AccessOutOfBoundsIsFatal : Prop :=
  ∀ s i a n, (loadRange s i = some (a, n) ∨ storeRange s i = some (a, n)) → s.memSize.toNat < a + n →
    Raises i .dataBounds s

/-- A store in bounds puts the low bytes of x[rs2] at its address, lowest byte first, and changes no other byte and
nothing else; no alignment is asked (R125 to R128; D9, D10). Memory is taken in its canonical form, which every step
keeps (StepKeepsTheInvariant). -/
def Obligations.StoresWriteTheirBytes : Prop :=
  ∀ s rs2 rs1 imm, Memory.wf s.mem = true →
    ((effAddr s rs1 imm).toNat + 1 ≤ s.memSize.toNat →
      StoresBytes (.sb rs2 rs1 imm) (effAddr s rs1 imm).toNat 1 (s.reg rs2) s)
    ∧ ((effAddr s rs1 imm).toNat + 2 ≤ s.memSize.toNat →
      StoresBytes (.sh rs2 rs1 imm) (effAddr s rs1 imm).toNat 2 (s.reg rs2) s)
    ∧ ((effAddr s rs1 imm).toNat + 4 ≤ s.memSize.toNat →
      StoresBytes (.sw rs2 rs1 imm) (effAddr s rs1 imm).toNat 4 (s.reg rs2) s)

/-- A store of a width followed by a load of the same width at the same address returns the stored bits: LW the
register itself, LHU and LBU its low bits, LH and LB their sign extension (R40). -/
def Obligations.LoadAfterStoreReturnsTheStoredBits : Prop :=
  ∀ s t rs2 rs1 rd imm, Memory.wf s.mem = true →
    (exec (.sw rs2 rs1 imm) s = .next t → exec (.lw rd rs1 imm) t = .next (t.setReg rd (s.reg rs2)))
    ∧ (exec (.sh rs2 rs1 imm) s = .next t →
      exec (.lhu rd rs1 imm) t = .next (t.setReg rd ((s.reg rs2) &&& 0xFFFF#32))
      ∧ exec (.lh rd rs1 imm) t = .next (t.setReg rd (((s.reg rs2).extractLsb' 0 16).signExtend 32)))
    ∧ (exec (.sb rs2 rs1 imm) s = .next t →
      exec (.lbu rd rs1 imm) t = .next (t.setReg rd ((s.reg rs2) &&& 0xFF#32))
      ∧ exec (.lb rd rs1 imm) t = .next (t.setReg rd (((s.reg rs2).extractLsb' 0 8).signExtend 32)))

/-- After a word store of v at a, a byte read at a + k gives v[8k+7 : 8k] and a half read at a + k gives
v[8k+15 : 8k] (R31, the spec's own derivation). -/
def Obligations.NarrowReadsSeeAWideStore : Prop :=
  ∀ s t a v, Memory.wf s.mem = true → memWrite s a 4 v = .ok t →
    (∀ k, k < 4 → memRead t (a + BitVec.ofNat 32 k) 1 = .ok (v.extractLsb' (8 * k) 8))
    ∧ (∀ k, k < 3 → memRead t (a + BitVec.ofNat 32 k) 2 = .ok (v.extractLsb' (8 * k) 16))

/-- A word stored at a multiple of 4 is what a fetch there reads next: no fence is needed (R45, R202, the spec's own
derivations; that a fetch is aligned is decision D8). -/
def Obligations.FetchSeesAStoredWord : Prop :=
  ∀ s t rs2 rs1 imm, Memory.wf s.mem = true → exec (.sw rs2 rs1 imm) s = .next t →
    (effAddr s rs1 imm).toNat % 4 = 0 → fetch (t.setPc (effAddr s rs1 imm)) = .ok (s.reg rs2)

/-! ### Arithmetic and logic -/

/-- ADDI, ADD and SUB write the exact signed sum or difference taken modulo 2^32 and change nothing else (R131, R146,
R147). -/
def Obligations.AddAndSubtractWrap : Prop :=
  ∀ s rd rs1 rs2 imm,
    WritesReg (.addi rd rs1 imm) rd (BitVec.ofInt 32 ((s.reg rs1).toInt + imm.toInt)) s
    ∧ WritesReg (.add rd rs1 rs2) rd (BitVec.ofInt 32 ((s.reg rs1).toInt + (s.reg rs2).toInt)) s
    ∧ WritesReg (.sub rd rs1 rs2) rd (BitVec.ofInt 32 ((s.reg rs1).toInt - (s.reg rs2).toInt)) s

/-- SLTI, SLT compare as two's-complement numbers, SLTIU, SLTU as unsigned ones, SLTIU after sign-extending its
immediate; 1 if less, else 0 (R132, R133, R149, R150; the values 1 and 0 are the spec's decision D23, log 9). -/
def Obligations.ComparesWriteOneOrZero : Prop :=
  ∀ s rd rs1 rs2 imm,
    WritesReg (.slti rd rs1 imm) rd (if (s.reg rs1).toInt < imm.toInt then 1#32 else 0#32) s
    ∧ WritesReg (.sltiu rd rs1 imm) rd (if ((s.reg rs1).toNat : Int) < imm.toInt % 2 ^ 32 then 1#32 else 0#32) s
    ∧ WritesReg (.slt rd rs1 rs2) rd (if (s.reg rs1).toInt < (s.reg rs2).toInt then 1#32 else 0#32) s
    ∧ WritesReg (.sltu rd rs1 rs2) rd (if (s.reg rs1).toNat < (s.reg rs2).toNat then 1#32 else 0#32) s

/-- XORI, ORI, ANDI, XOR, OR and AND work bit by bit; an immediate's bits above 11 are its bit 11 (R134 to R136,
R151, R154, R155). -/
def Obligations.BitwiseInstructionsWorkBitByBit : Prop :=
  ∀ s rd rs1 rs2 (imm : BitVec 12),
    (∃ v, WritesReg (.xori rd rs1 imm) rd v s
      ∧ ∀ k, k < 32 → v.getLsbD k = ((s.reg rs1).getLsbD k ^^ imm.getLsbD (min k 11)))
    ∧ (∃ v, WritesReg (.ori rd rs1 imm) rd v s
      ∧ ∀ k, k < 32 → v.getLsbD k = ((s.reg rs1).getLsbD k || imm.getLsbD (min k 11)))
    ∧ (∃ v, WritesReg (.andi rd rs1 imm) rd v s
      ∧ ∀ k, k < 32 → v.getLsbD k = ((s.reg rs1).getLsbD k && imm.getLsbD (min k 11)))
    ∧ (∃ v, WritesReg (.xor rd rs1 rs2) rd v s
      ∧ ∀ k, k < 32 → v.getLsbD k = ((s.reg rs1).getLsbD k ^^ (s.reg rs2).getLsbD k))
    ∧ (∃ v, WritesReg (.or rd rs1 rs2) rd v s
      ∧ ∀ k, k < 32 → v.getLsbD k = ((s.reg rs1).getLsbD k || (s.reg rs2).getLsbD k))
    ∧ (∃ v, WritesReg (.and rd rs1 rs2) rd v s
      ∧ ∀ k, k < 32 → v.getLsbD k = ((s.reg rs1).getLsbD k && (s.reg rs2).getLsbD k))

/-- SLLI multiplies by a power of two modulo 2^32, SRLI divides the unsigned value, SRAI takes the floor of dividing
the signed value (R137 to R139; that arithmetic means sign fill is supplied by the spec from general knowledge,
log 9). -/
def Obligations.ImmediateShiftsScaleByPowersOfTwo : Prop :=
  ∀ s rd rs1 (shamt : BitVec 5),
    WritesReg (.slli rd rs1 shamt) rd (BitVec.ofNat 32 ((s.reg rs1).toNat * 2 ^ shamt.toNat)) s
    ∧ WritesReg (.srli rd rs1 shamt) rd (BitVec.ofNat 32 ((s.reg rs1).toNat / 2 ^ shamt.toNat)) s
    ∧ WritesReg (.srai rd rs1 shamt) rd (BitVec.ofInt 32 (Int.fdiv (s.reg rs1).toInt (2 ^ shamt.toNat))) s

/-- SLL, SRL and SRA shift by the low 5 bits of x[rs2], that is x[rs2] modulo 32, and otherwise as their immediate
forms (R148, R152, R153; the low 5 bits are the spec's decision D13, log 9). -/
def Obligations.RegisterShiftsUseTheLowFiveBits : Prop :=
  ∀ s rd rs1 rs2,
    WritesReg (.sll rd rs1 rs2) rd (BitVec.ofNat 32 ((s.reg rs1).toNat * 2 ^ ((s.reg rs2).toNat % 32))) s
    ∧ WritesReg (.srl rd rs1 rs2) rd (BitVec.ofNat 32 ((s.reg rs1).toNat / 2 ^ ((s.reg rs2).toNat % 32))) s
    ∧ WritesReg (.sra rd rs1 rs2) rd (BitVec.ofInt 32 (Int.fdiv (s.reg rs1).toInt (2 ^ ((s.reg rs2).toNat % 32)))) s

/-! ### The environment call -/

/-- ECALL with the exit number in x17 makes the run status Finished and changes nothing else in the dispatch stage
(R162; the register is the spec's decision D3, the number D5; log 3, 4). -/
def Obligations.EcallExits : Prop :=
  ∀ s, s.reg 17#5 = 0x45584954#32 →
    ∃ t, exec .ecall s = .next t ∧ t.status = .finished ∧ (∀ r, t.reg r = s.reg r) ∧ (∀ a, t.byte a = s.byte a)
      ∧ t.pc = s.pc ∧ t.memSize = s.memSize ∧ t.instret = s.instret ∧ t.out = s.out ∧ t.countOut = s.countOut

/-- ECALL with 1 in x17 and a buffer in bounds appends its bytes in ascending address order to the output and changes
nothing else; an empty buffer emits nothing (R163, R36; registers D3, D4, empty buffer and raw bytes D17; log 3,
13). -/
def Obligations.EcallWritesTheBuffer : Prop :=
  ∀ s, s.reg 17#5 = 1#32 → (s.reg 10#5).toNat + (s.reg 11#5).toNat ≤ s.memSize.toNat →
    ∃ t, exec .ecall s = .next t ∧ t.out.length = s.out.length + (s.reg 11#5).toNat
      ∧ (∀ k, k < s.out.length → t.out[k]? = s.out[k]?)
      ∧ (∀ k, k < (s.reg 11#5).toNat → t.out[s.out.length + k]? = some (s.byte ((s.reg 10#5).toNat + k)))
      ∧ (∀ r, t.reg r = s.reg r) ∧ (∀ a, t.byte a = s.byte a) ∧ t.pc = s.pc ∧ t.memSize = s.memSize
      ∧ t.instret = s.instret ∧ t.status = s.status ∧ t.countOut = s.countOut

/-- ECALL with 1 in x17 and a buffer past MEM_SIZE is `Error(SyscallBounds)` and emits nothing, the empty buffer at an
address above MEM_SIZE included (R163, R36; D3, D4, D17). -/
def Obligations.EcallWriteOutOfBoundsIsFatal : Prop :=
  ∀ s, s.reg 17#5 = 1#32 → s.memSize.toNat < (s.reg 10#5).toNat + (s.reg 11#5).toNat →
    Raises .ecall .syscallBounds s

/-- Whatever register holds the number and whatever the sentinel: a number that is neither the sentinel nor 1 ends
the step with `Error(Syscall)`, so there are exactly two system calls; in particular 0, 64 and 93 are errors (under
any sentinel but those three numbers themselves). ECALL is this dispatcher at the model's parameters (R164). -/
def Obligations.UnknownSystemCallIsFatal : Prop :=
  (∀ (c : Config) s, s.reg c.syscallNumReg ≠ c.exitSentinel → s.reg c.syscallNumReg ≠ 1#32 →
      ecallWith c s = .fault (.error .syscall { s with status := .error .syscall }))
    ∧ (∀ (c : Config) s t, ecallWith c s = .next t →
      s.reg c.syscallNumReg = c.exitSentinel ∨ s.reg c.syscallNumReg = 1#32)
    ∧ (∀ (c : Config) s, c.exitSentinel ≠ s.reg c.syscallNumReg → s.reg c.syscallNumReg ∈ [0#32, 64#32, 93#32] →
      ecallWith c s = .fault (.error .syscall { s with status := .error .syscall }))
    ∧ (∀ s, exec .ecall s = ecallWith params s)

/-- ECALL as the first instruction after reset, whatever the blob: x17 holds 0, so the step ends with
`Error(Syscall)`, the counter at 0 and `pc` at 12. That x17 is 0 is the spec's decision D6 (log 5), the register D3,
the word D2. -/
def Obligations.EcallStraightAfterResetIsFatal : Prop :=
  (∀ blob s, load blob = .next s → fetch s = .ok 0x00000073#32 →
      step s = .fault (.error .syscall { s with pc := 12#32, status := .error .syscall }) ∧ s.instret = 0)
    ∧ ∃ after, step (State.reset.withFetchWord 32 0x00000073) = .fault (.error .syscall after)
        ∧ after.instret = 0 ∧ after.pc = 12#32

/-- No outcome of the environment call writes a register, a byte of memory, `pc` or the counter; only the output and
the run status can change (R165, the spec's own derivation), whatever the parameters. -/
def Obligations.EcallLeavesTheRestAlone : Prop :=
  ∀ (c : Config) s t, (ecallWith c s = .next t ∨ ∃ r, ecallWith c s = .fault (.error r t)) →
    (∀ r, t.reg r = s.reg r) ∧ t.mem = s.mem ∧ t.pc = s.pc ∧ t.memSize = s.memSize ∧ t.instret = s.instret
      ∧ t.countOut = s.countOut ∧ (∃ bs, t.out = s.out ++ bs) ∧ (t.out ≠ s.out → s.reg c.syscallNumReg = 1#32)

/-! ### The step and the run -/

/-- A step of a Running state runs the instruction its fetched word decodes to on the state with `pc` advanced by 4 and
retires its answer; a fetched word that is no instruction ends the step with `Error(Decode)` and `pc` at `pc_next`; a
failed fetch ends it with the fetch's error and `pc` unchanged (R64, R80 to R84, R87, R88; that the exit step is counted
is the spec's resolution C2, decision D12, log 12; that fetches fail and what a failing step leaves D7, D8, D18, log 7,
14). -/
def Obligations.StepRunsTheDecodedInstruction : Prop := StepCycle decode exec step

/-- A fetch reads the four bytes at `pc` as one little-endian word when `pc` is a multiple of 4 and they are in memory;
a misaligned `pc` is `FetchMisaligned`, also where it is out of bounds; an aligned one out of bounds is `FetchBounds`
(R30, R38, R81; both errors and their order are the spec's decisions D7, D8; log 7). -/
def Obligations.FetchReadsAnAlignedWord : Prop :=
  ∀ s,
    (s.pc.toNat % 4 = 0 → s.pc.toNat + 4 ≤ s.memSize.toNat →
      fetch s = .ok (s.byte (s.pc.toNat + 3) ++ s.byte (s.pc.toNat + 2) ++ s.byte (s.pc.toNat + 1) ++ s.byte s.pc.toNat))
    ∧ (s.pc.toNat % 4 ≠ 0 → fetch s = .error .fetchMisaligned)
    ∧ (s.pc.toNat % 4 = 0 → s.memSize.toNat < s.pc.toNat + 4 → fetch s = .error .fetchBounds)

/-- Every error a step raises has the cause R171 gives its reason (the reasons are the spec's decision D20; the
order of the checks is R174, D8). -/
def Obligations.EveryErrorHasItsCause : Prop :=
  ∀ s r a, step s = .fault (.error r a) → s.status = .running ∧ CauseOf s r

/-- A step that raises has changed nothing but the run status and, unless the fetch failed, `pc`, which is then
`pc_next`; it is not counted (R86, R82; the spec's decision D18, log 14). -/
def Obligations.FailingStepChangesAtMostThePc : Prop :=
  ∀ s r a, step s = .fault (.error r a) →
    a = { s with pc := if isFetchError r then s.pc else s.pc + 4#32, status := .error r }

/-- The run status is Running at reset; a step that raises ends with it at that error; and from a state that is
Finished or in error no step is taken, so it never changes again (R21, R170). -/
def Obligations.EndedRunsTakeNoStep : Prop :=
  State.reset.status = .running
    ∧ (∀ blob s, load blob = .next s → s.status = .running)
    ∧ (∀ s r a, step s = .fault (.error r a) → a.status = .error r ∧ step a = .fault .runEnded)
    ∧ (∀ s, s.status ≠ .running → step s = .fault .runEnded ∧ ∀ fuel, runFor fuel s = s)

/-- Every instruction but ECALL that completes leaves the run status as it is; ECALL that completes finishes on the
exit number and goes on on number 1; what does not complete raises an error; a step finishes only by the exit call;
and running off the end of memory is an error (R85). -/
def Obligations.OnlyTheExitCallFinishes : Prop :=
  (∀ i s t, i ≠ .ecall → exec i s = .next t → t.status = s.status)
    ∧ (∀ s t, exec .ecall s = .next t →
      (s.reg params.syscallNumReg = params.exitSentinel ∧ t.status = .finished)
        ∨ (s.reg params.syscallNumReg = 1#32 ∧ t.status = s.status))
    ∧ (∀ i s, (∃ t, exec i s = .next t) ∨ ∃ r, Raises i r s)
    ∧ (∀ s t, step s = .next t → t.status = .finished →
      Fetches s .ecall ∧ s.reg params.syscallNumReg = params.exitSentinel)
    ∧ (∀ s, s.status = .running → s.memSize.toNat < s.pc.toNat + 4 → ∃ r a, step s = .fault (.error r a))

/-- Register 0 reads as zero before and after every instruction, and its slot is never written (R11); a write to it
changes nothing, while the rest of the instruction still happens: a load to it is bounds-checked, a jump with it
still jumps (R12). -/
def Obligations.RegisterZeroIsAConstantSink : Prop :=
  (∀ (s : State) v, s.reg 0#5 = 0#32 ∧ s.setReg 0#5 v = s)
    ∧ (∀ i s t, exec i s = .next t → t.reg 0#5 = 0#32 ∧ t.regs[0] = s.regs[0])
    ∧ (∀ s i a n, destOf i = some 0#5 → loadRange s i = some (a, n) →
      exec i s = if a + n ≤ s.memSize.toNat then .next s
        else .fault (.error .dataBounds { s with status := .error .dataBounds }))
    ∧ (∀ s imm, exec (.jal 0#5 imm) s = .next { s with pc := relTarget s imm })
    ∧ (∀ s rs1 imm, exec (.jalr 0#5 rs1 imm) s = .next { s with pc := indirectTarget s rs1 imm })

/-- A register changes in a step only if the instruction at the program counter names it as its destination
(R12, R14, R201; which instructions have a destination is the formats of R52). -/
def Obligations.OnlyTheDestinationRegisterChanges : Prop :=
  ∀ s t r, step s = .next t → t.reg r ≠ s.reg r → r ≠ 0#5 ∧ ∃ i, Fetches s i ∧ destOf i = some r

/-- A byte of memory changes in a step only if the instruction at the program counter is a store and the byte is one
of those it stores to, below MEM_SIZE; MEM_SIZE itself never changes (R18, R34, R39). -/
def Obligations.OnlyStoresWriteMemory : Prop :=
  ∀ s t, Memory.wf s.mem = true → step s = .next t →
    t.memSize = s.memSize
      ∧ ∀ b, t.byte b ≠ s.byte b → ∃ i a n, Fetches s i ∧ storeRange s i = some (a, n) ∧ a ≤ b ∧ b < a + n
        ∧ a + n ≤ s.memSize.toNat

/-- The output is empty at reset and after loading; a step leaves it as it is or, if it is system call 1, appends the
bytes of its buffer, ascending, as they stand in memory; and no instruction reads it: with a longer past the step does
the same (R20, R163; that the bytes go out raw is the spec's decision D17, log 13). -/
def Obligations.OutputOnlyGrowsBySystemCallOne : Prop :=
  State.reset.out = [] ∧ (∀ blob s, load blob = .next s → s.out = [])
    ∧ (∀ s t, step s = .next t → t.out = s.out ∨
      (Fetches s .ecall ∧ s.reg params.syscallNumReg = 1#32
        ∧ t.out = s.out ++ (List.range (s.reg params.writeLenReg).toNat).map
            fun k => s.byte ((s.reg params.writePtrReg).toNat + k)))
    ∧ (∀ (s : State) o, step { s with out := o ++ s.out } = mapResult (fun t => { t with out := o ++ t.out }) (step s))

/-- No step reads the counter, the output or the presented count: two states that differ in nothing but the counter by
`n`, a prefix `o` of the output and a presented count (`p` in one of them, any other or none in the other) answer states
that differ by the same `n` and `o`, and present the count of a run that finished, else what they presented before
(R19, R20, R87, R89; that the counter has no maximum is the spec's decision D27, log 12; how the presented count is held
is the model's, log 21). -/
def Obligations.CounterAndOutputAreNeverRead : Prop :=
  ∀ (n : Nat) (o : List Byte) (p : Option Nat) (s : State),
    step { s with instret := s.instret + n, out := o ++ s.out, countOut := p }
      = mapResult (fun t => { t with
          instret := t.instret + n
          out := o ++ t.out
          countOut := if t.status = .finished then some (t.instret + n) else p }) (step s)

/-- Every step that completes raises the counter by exactly 1, so k steps raise it by k; and if the last of them
finished the run, COUNT_OUT presents the counter, the exit call counted (R87, R88; that it is counted is the spec's
resolution C2, decision D12, log 12). -/
def Obligations.CounterCountsTheStepsTaken : Prop :=
  ∀ (k : Nat) (s t : State), core.run k s = .next t →
    t.instret = s.instret + k ∧ (0 < k → t.status = .finished → t.countOut = some (s.instret + k))

/-- The source's property: one environment call with the exit number preset, from any aligned address in memory with
the counter 0, finishes with the count 1 (R88, R162; C2, C4, D2, D3, D5, D12). -/
def Obligations.SingleExitCallCountsOne : Prop :=
  ∀ s, s.status = .running → s.instret = 0 → s.reg 17#5 = 0x45584954#32 → fetch s = .ok 0x00000073#32 →
    ∃ t, step s = .next t ∧ t.status = .finished ∧ t.instret = 1 ∧ t.countOut = some 1 ∧ t.pc = s.pc + 4#32
      ∧ (∀ r, t.reg r = s.reg r) ∧ t.mem = s.mem ∧ t.out = s.out

/-- Once a run has ended more fuel changes nothing, and a run that is still Running has taken exactly as many steps as
its fuel: running out of fuel is no end (R89, R90; D24, log 22). -/
def Obligations.FuelIsNoEnd : Prop :=
  ∀ (n : Nat) (s : State), ((runFor n s).status ≠ .running → ∀ m, n ≤ m → runFor m s = runFor n s)
    ∧ ((runFor n s).status = .running → core.run n s = .next (runFor n s))

/-- EVERY STEP KEEPS THE INVARIANT: memory in its canonical form, nothing held at MEM_SIZE or above, slot 0 of the
registers zero, the program counter even, the count presented exactly when Finished (R12, R17, R18, R89). -/
def Obligations.StepKeepsTheInvariant : Prop :=
  ∀ s t, s.Inv → step s = .next t → t.Inv

/-- The invariant holds of the reset state (log 17). -/
def Obligations.ResetMeetsTheInvariant : Prop :=
  State.reset.Inv ∧ State.reset.status = .running

/-- The invariant holds however a run of a loaded program ends, by exit, by an error or by lack of fuel; in
particular no count is presented after an error (R89, R172). -/
def Obligations.RunsOfLoadedProgramsKeepTheInvariant : Prop :=
  ∀ blob s n, load blob = .next s → (runFor n s).Inv
    ∧ ((runFor n s).status ≠ .finished → (runFor n s).countOut = none)

/-! ### The loader and reset -/

/-- From a blob of at least four bytes whose memory is below 2^32 bytes, the loader builds the image without its last
four bytes at address 0 and zero bytes above it; MEM_SIZE is the image's length plus the request in the last four
bytes, least significant first, silently clamped to 16 MiB (R190, R191). -/
def Obligations.LoaderBuildsTheMemory : Prop :=
  ∀ (image : List Byte) (b0 b1 b2 b3 : Byte),
    image.length + min (b0.toNat + 256 * b1.toNat + 65536 * b2.toNat + 16777216 * b3.toNat) (16 * 1024 * 1024) < 2 ^ 32 →
    ∃ s, load (image ++ [b0, b1, b2, b3]) = .next s
      ∧ s.memSize.toNat = image.length
        + min (b0.toNat + 256 * b1.toNat + 65536 * b2.toNat + 16777216 * b3.toNat) (16 * 1024 * 1024)
      ∧ (∀ a (h : a < image.length), s.byte a = image[a])
      ∧ (∀ a, image.length ≤ a → a < s.memSize.toNat → s.byte a = 0#8)

/-- The loader refuses a blob shorter than four bytes and a memory of 2^32 bytes or more, and no other: it never
faults (R192; the spec's decisions D15, D16, log 18). -/
def Obligations.LoaderRefusesOnlyTheseBlobs : Prop :=
  ∀ blob, (blob.length < 4 ∨ 2 ^ 32 ≤ loadedSize blob → load blob = .refused .loaderError)
    ∧ (4 ≤ blob.length → loadedSize blob < 2 ^ 32 → ∃ s, load blob = .next s)

/-- Every loaded machine begins at address 8 with x2 holding MEM_SIZE, every other register 0, the counter 0, nothing
written out, Running, nothing presented (R193, R194; that the other registers are 0 is the spec's decision D6,
log 5). -/
def Obligations.LoadedMachineBeginsAsReset : Prop :=
  ∀ blob s, load blob = .next s →
    s.pc = 8#32 ∧ s.reg 2#5 = s.memSize ∧ (∀ r, r ≠ 2#5 → s.reg r = 0#32) ∧ s.instret = 0 ∧ s.out = []
      ∧ s.status = .running ∧ s.countOut = none

/-- The model's State.reset is the reset of a machine loaded with the empty image and the greatest BSS region
(16 MiB), the model's own choice of a blob (log 17): memory all zero, MEM_SIZE 16,777,216, and a first step that ends
in `Error(Decode)` on the zero word at address 8. -/
def Obligations.ResetIsTheEmptyImage : Prop :=
  load [0x00#8, 0x00#8, 0x00#8, 0x01#8] = .next State.reset ∧ State.reset.memSize = 0x01000000#32
    ∧ (∀ a, State.reset.byte a = 0#8) ∧ ∃ a, step State.reset = .fault (.error .decode a) ∧ a.pc = 12#32 ∧ a.instret = 0

/-! ### The parameters of R6 -/

/-- The dispatch, the step, the run and the loaded run at the default parameters are those of every other statement
(R6). -/
def Obligations.MachineAtTheDefaultsIsTheModel : Prop :=
  (∀ w, decodeWith params w = decode w) ∧ (∀ i s, execWith params i s = exec i s)
    ∧ (∀ s, stepWith params s = step s) ∧ (∀ fuel s, runForWith params fuel s = runFor fuel s)
    ∧ (∀ fuel blob, runBlobWith params fuel blob = runBlob fuel blob)

/-- Whatever the parameters, the step is the cycle of R80 over the decoder and the dispatch under those parameters: the
clauses of `Obligations.StepRunsTheDecodedInstruction` for each of them (R6, R64, R80 to R84, R87, R88; decisions and
log entries as there). -/
def Obligations.StepAtEveryParameterChoice : Prop :=
  ∀ c : Config, StepCycle (decodeWith c) (execWith c) (stepWith c)

/-- What the parameters change in the dispatch stage: AUIPC adds to `pc_fetch` or to `pc_next` as AUIPC_BASE says (R96);
ECALL takes its number from the designated register, exits on the sentinel, writes out the buffer its two registers
name on 1, and is an error otherwise (R160 to R164; raw bytes and the empty buffer D17, log 13); and no other
instruction depends on a parameter (R6). -/
def Obligations.ParametersReachAuipcAndEcallAlone : Prop :=
  ∀ (c : Config) (s : State),
    (∀ pcFetch rd imm20, s.pc = pcFetch + 4#32 →
      (c.auipcBase = .fetch → execWith c (.auipc rd imm20) s
          = .next (s.setReg rd (BitVec.ofNat 32 (pcFetch.toNat + imm20.toNat * 4096))))
        ∧ (c.auipcBase = .next → execWith c (.auipc rd imm20) s
          = .next (s.setReg rd (BitVec.ofNat 32 (pcFetch.toNat + 4 + imm20.toNat * 4096)))))
    ∧ (s.reg c.syscallNumReg = c.exitSentinel → execWith c .ecall s = .next { s with status := .finished })
    ∧ (s.reg c.syscallNumReg ≠ c.exitSentinel → s.reg c.syscallNumReg = 1#32 →
        (s.reg c.writePtrReg).toNat + (s.reg c.writeLenReg).toNat ≤ s.memSize.toNat →
      execWith c .ecall s = .next { s with
        out := s.out ++ (List.range (s.reg c.writeLenReg).toNat).map
          fun k => s.byte ((s.reg c.writePtrReg).toNat + k) })
    ∧ (s.reg c.syscallNumReg ≠ c.exitSentinel → s.reg c.syscallNumReg = 1#32 →
        s.memSize.toNat < (s.reg c.writePtrReg).toNat + (s.reg c.writeLenReg).toNat →
      execWith c .ecall s = .fault (.error .syscallBounds { s with status := .error .syscallBounds }))
    ∧ (s.reg c.syscallNumReg ≠ c.exitSentinel → s.reg c.syscallNumReg ≠ 1#32 →
      execWith c .ecall s = .fault (.error .syscall { s with status := .error .syscall }))
    ∧ (∀ i, i ≠ .ecall → (∀ rd imm20, i ≠ .auipc rd imm20) → execWith c i s = exec i s)

/-- Every step keeps the invariant, whatever the parameters (R6, and the rules of
`Obligations.StepKeepsTheInvariant`). -/
def Obligations.StepKeepsTheInvariantAtEveryParameterChoice : Prop :=
  ∀ (c : Config) (s t : State), s.Inv → stepWith c s = .next t → t.Inv

/-- Whatever RESET_REG_VALUE is, every loaded machine has it in every register but 0, which reads zero, and 2, which
holds MEM_SIZE; its memory, its `pc` and the rest do not depend on the parameters (R6, R23, R193). -/
def Obligations.ResetRegistersHoldTheParameter : Prop :=
  ∀ (c : Config) blob s, loadWith c blob = .next s →
    s.reg 0#5 = 0#32 ∧ s.reg 2#5 = s.memSize ∧ (∀ r, r ≠ 0#5 → r ≠ 2#5 → s.reg r = c.resetRegValue)
      ∧ ∃ t, load blob = .next t ∧ s = { t with regs := s.regs }
end

