-- ==== Sys2Proof/Laws/Decode.lean ====
section
/-! SUPPORT. The fields of an encoded word, format by format, and the word put together again from its fields: what
the round trips of the decoder and the encoder rest on (spec/30_encoding.md R51 to R58); and what the decoder can
answer, family by family (R59 to R63). -/

namespace Sys2Proof

/-! ### R format -/

theorem opcodeOf_encodeR (f7 : BitVec 7) (rs2 rs1 : Reg) (f3 : BitVec 3) (rd : Reg) (op : BitVec 7) :
    opcodeOf (encodeR f7 rs2 rs1 f3 rd op) = op := by
  apply BitVec.eq_of_getLsbD_eq
  intro i hi
  simp only [opcodeOf, encodeR, BitVec.getLsbD_append, BitVec.getLsbD_extractLsb']
  interval_cases i <;> simp

theorem rdOf_encodeR (f7 : BitVec 7) (rs2 rs1 : Reg) (f3 : BitVec 3) (rd : Reg) (op : BitVec 7) :
    rdOf (encodeR f7 rs2 rs1 f3 rd op) = rd := by
  apply BitVec.eq_of_getLsbD_eq
  intro i hi
  simp only [rdOf, encodeR, BitVec.getLsbD_append, BitVec.getLsbD_extractLsb']
  interval_cases i <;> simp

theorem funct3Of_encodeR (f7 : BitVec 7) (rs2 rs1 : Reg) (f3 : BitVec 3) (rd : Reg) (op : BitVec 7) :
    funct3Of (encodeR f7 rs2 rs1 f3 rd op) = f3 := by
  apply BitVec.eq_of_getLsbD_eq
  intro i hi
  simp only [funct3Of, encodeR, BitVec.getLsbD_append, BitVec.getLsbD_extractLsb']
  interval_cases i <;> simp

theorem rs1Of_encodeR (f7 : BitVec 7) (rs2 rs1 : Reg) (f3 : BitVec 3) (rd : Reg) (op : BitVec 7) :
    rs1Of (encodeR f7 rs2 rs1 f3 rd op) = rs1 := by
  apply BitVec.eq_of_getLsbD_eq
  intro i hi
  simp only [rs1Of, encodeR, BitVec.getLsbD_append, BitVec.getLsbD_extractLsb']
  interval_cases i <;> simp

theorem rs2Of_encodeR (f7 : BitVec 7) (rs2 rs1 : Reg) (f3 : BitVec 3) (rd : Reg) (op : BitVec 7) :
    rs2Of (encodeR f7 rs2 rs1 f3 rd op) = rs2 := by
  apply BitVec.eq_of_getLsbD_eq
  intro i hi
  simp only [rs2Of, encodeR, BitVec.getLsbD_append, BitVec.getLsbD_extractLsb']
  interval_cases i <;> simp

theorem funct7Of_encodeR (f7 : BitVec 7) (rs2 rs1 : Reg) (f3 : BitVec 3) (rd : Reg) (op : BitVec 7) :
    funct7Of (encodeR f7 rs2 rs1 f3 rd op) = f7 := by
  apply BitVec.eq_of_getLsbD_eq
  intro i hi
  simp only [funct7Of, encodeR, BitVec.getLsbD_append, BitVec.getLsbD_extractLsb']
  interval_cases i <;> simp

theorem shamtOf_encodeR (f7 : BitVec 7) (rs2 rs1 : Reg) (f3 : BitVec 3) (rd : Reg) (op : BitVec 7) :
    shamtOf (encodeR f7 rs2 rs1 f3 rd op) = rs2 := by
  apply BitVec.eq_of_getLsbD_eq
  intro i hi
  simp only [shamtOf, encodeR, BitVec.getLsbD_append, BitVec.getLsbD_extractLsb']
  interval_cases i <;> simp

/-! ### I format -/

theorem opcodeOf_encodeI (imm : BitVec 12) (rs1 : Reg) (f3 : BitVec 3) (rd : Reg) (op : BitVec 7) :
    opcodeOf (encodeI imm rs1 f3 rd op) = op := by
  apply BitVec.eq_of_getLsbD_eq
  intro i hi
  simp only [opcodeOf, encodeI, BitVec.getLsbD_append, BitVec.getLsbD_extractLsb']
  interval_cases i <;> simp

theorem rdOf_encodeI (imm : BitVec 12) (rs1 : Reg) (f3 : BitVec 3) (rd : Reg) (op : BitVec 7) :
    rdOf (encodeI imm rs1 f3 rd op) = rd := by
  apply BitVec.eq_of_getLsbD_eq
  intro i hi
  simp only [rdOf, encodeI, BitVec.getLsbD_append, BitVec.getLsbD_extractLsb']
  interval_cases i <;> simp

theorem funct3Of_encodeI (imm : BitVec 12) (rs1 : Reg) (f3 : BitVec 3) (rd : Reg) (op : BitVec 7) :
    funct3Of (encodeI imm rs1 f3 rd op) = f3 := by
  apply BitVec.eq_of_getLsbD_eq
  intro i hi
  simp only [funct3Of, encodeI, BitVec.getLsbD_append, BitVec.getLsbD_extractLsb']
  interval_cases i <;> simp

theorem rs1Of_encodeI (imm : BitVec 12) (rs1 : Reg) (f3 : BitVec 3) (rd : Reg) (op : BitVec 7) :
    rs1Of (encodeI imm rs1 f3 rd op) = rs1 := by
  apply BitVec.eq_of_getLsbD_eq
  intro i hi
  simp only [rs1Of, encodeI, BitVec.getLsbD_append, BitVec.getLsbD_extractLsb']
  interval_cases i <;> simp

theorem immIOf_encodeI (imm : BitVec 12) (rs1 : Reg) (f3 : BitVec 3) (rd : Reg) (op : BitVec 7) :
    immIOf (encodeI imm rs1 f3 rd op) = imm := by
  apply BitVec.eq_of_getLsbD_eq
  intro i hi
  simp only [immIOf, encodeI, BitVec.getLsbD_append, BitVec.getLsbD_extractLsb']
  interval_cases i <;> simp

/-! ### S format -/

theorem opcodeOf_encodeS (imm : BitVec 12) (rs2 rs1 : Reg) (f3 : BitVec 3) (op : BitVec 7) :
    opcodeOf (encodeS imm rs2 rs1 f3 op) = op := by
  apply BitVec.eq_of_getLsbD_eq
  intro i hi
  simp only [opcodeOf, encodeS, BitVec.getLsbD_append, BitVec.getLsbD_extractLsb']
  interval_cases i <;> simp

theorem funct3Of_encodeS (imm : BitVec 12) (rs2 rs1 : Reg) (f3 : BitVec 3) (op : BitVec 7) :
    funct3Of (encodeS imm rs2 rs1 f3 op) = f3 := by
  apply BitVec.eq_of_getLsbD_eq
  intro i hi
  simp only [funct3Of, encodeS, BitVec.getLsbD_append, BitVec.getLsbD_extractLsb']
  interval_cases i <;> simp

theorem rs1Of_encodeS (imm : BitVec 12) (rs2 rs1 : Reg) (f3 : BitVec 3) (op : BitVec 7) :
    rs1Of (encodeS imm rs2 rs1 f3 op) = rs1 := by
  apply BitVec.eq_of_getLsbD_eq
  intro i hi
  simp only [rs1Of, encodeS, BitVec.getLsbD_append, BitVec.getLsbD_extractLsb']
  interval_cases i <;> simp

theorem rs2Of_encodeS (imm : BitVec 12) (rs2 rs1 : Reg) (f3 : BitVec 3) (op : BitVec 7) :
    rs2Of (encodeS imm rs2 rs1 f3 op) = rs2 := by
  apply BitVec.eq_of_getLsbD_eq
  intro i hi
  simp only [rs2Of, encodeS, BitVec.getLsbD_append, BitVec.getLsbD_extractLsb']
  interval_cases i <;> simp

theorem immSOf_encodeS (imm : BitVec 12) (rs2 rs1 : Reg) (f3 : BitVec 3) (op : BitVec 7) :
    immSOf (encodeS imm rs2 rs1 f3 op) = imm := by
  apply BitVec.eq_of_getLsbD_eq
  intro i hi
  simp only [immSOf, encodeS, BitVec.getLsbD_append, BitVec.getLsbD_extractLsb']
  interval_cases i <;> simp

/-! ### B format -/

theorem opcodeOf_encodeB (imm : BitVec 13) (rs2 rs1 : Reg) (f3 : BitVec 3) (op : BitVec 7) :
    opcodeOf (encodeB imm rs2 rs1 f3 op) = op := by
  apply BitVec.eq_of_getLsbD_eq
  intro i hi
  simp only [opcodeOf, encodeB, BitVec.getLsbD_append, BitVec.getLsbD_extractLsb']
  interval_cases i <;> simp

theorem funct3Of_encodeB (imm : BitVec 13) (rs2 rs1 : Reg) (f3 : BitVec 3) (op : BitVec 7) :
    funct3Of (encodeB imm rs2 rs1 f3 op) = f3 := by
  apply BitVec.eq_of_getLsbD_eq
  intro i hi
  simp only [funct3Of, encodeB, BitVec.getLsbD_append, BitVec.getLsbD_extractLsb']
  interval_cases i <;> simp

theorem rs1Of_encodeB (imm : BitVec 13) (rs2 rs1 : Reg) (f3 : BitVec 3) (op : BitVec 7) :
    rs1Of (encodeB imm rs2 rs1 f3 op) = rs1 := by
  apply BitVec.eq_of_getLsbD_eq
  intro i hi
  simp only [rs1Of, encodeB, BitVec.getLsbD_append, BitVec.getLsbD_extractLsb']
  interval_cases i <;> simp

theorem rs2Of_encodeB (imm : BitVec 13) (rs2 rs1 : Reg) (f3 : BitVec 3) (op : BitVec 7) :
    rs2Of (encodeB imm rs2 rs1 f3 op) = rs2 := by
  apply BitVec.eq_of_getLsbD_eq
  intro i hi
  simp only [rs2Of, encodeB, BitVec.getLsbD_append, BitVec.getLsbD_extractLsb']
  interval_cases i <;> simp

theorem immBOf_encodeB (imm : BitVec 13) (rs2 rs1 : Reg) (f3 : BitVec 3) (op : BitVec 7) (h : evenImm imm = true) :
    immBOf (encodeB imm rs2 rs1 f3 op) = imm := by
  simp only [evenImm, Bool.not_eq_true'] at h
  apply BitVec.eq_of_getLsbD_eq
  intro i hi
  simp only [immBOf, encodeB, BitVec.getLsbD_append, BitVec.getLsbD_extractLsb']
  interval_cases i <;> simp_all

/-! ### U format -/

theorem opcodeOf_encodeU (imm : BitVec 20) (rd : Reg) (op : BitVec 7) :
    opcodeOf (encodeU imm rd op) = op := by
  apply BitVec.eq_of_getLsbD_eq
  intro i hi
  simp only [opcodeOf, encodeU, BitVec.getLsbD_append, BitVec.getLsbD_extractLsb']
  interval_cases i <;> simp

theorem rdOf_encodeU (imm : BitVec 20) (rd : Reg) (op : BitVec 7) :
    rdOf (encodeU imm rd op) = rd := by
  apply BitVec.eq_of_getLsbD_eq
  intro i hi
  simp only [rdOf, encodeU, BitVec.getLsbD_append, BitVec.getLsbD_extractLsb']
  interval_cases i <;> simp

theorem immUOf_encodeU (imm : BitVec 20) (rd : Reg) (op : BitVec 7) :
    immUOf (encodeU imm rd op) = imm := by
  apply BitVec.eq_of_getLsbD_eq
  intro i hi
  simp only [immUOf, encodeU, BitVec.getLsbD_append, BitVec.getLsbD_extractLsb']
  interval_cases i <;> simp

/-! ### J format -/

theorem opcodeOf_encodeJ (imm : BitVec 21) (rd : Reg) (op : BitVec 7) :
    opcodeOf (encodeJ imm rd op) = op := by
  apply BitVec.eq_of_getLsbD_eq
  intro i hi
  simp only [opcodeOf, encodeJ, BitVec.getLsbD_append, BitVec.getLsbD_extractLsb']
  interval_cases i <;> simp

theorem rdOf_encodeJ (imm : BitVec 21) (rd : Reg) (op : BitVec 7) :
    rdOf (encodeJ imm rd op) = rd := by
  apply BitVec.eq_of_getLsbD_eq
  intro i hi
  simp only [rdOf, encodeJ, BitVec.getLsbD_append, BitVec.getLsbD_extractLsb']
  interval_cases i <;> simp

theorem immJOf_encodeJ (imm : BitVec 21) (rd : Reg) (op : BitVec 7) (h : evenImm imm = true) :
    immJOf (encodeJ imm rd op) = imm := by
  simp only [evenImm, Bool.not_eq_true'] at h
  apply BitVec.eq_of_getLsbD_eq
  intro i hi
  simp only [immJOf, encodeJ, BitVec.getLsbD_append, BitVec.getLsbD_extractLsb']
  interval_cases i <;> simp_all

/-! ### A word from its fields: no bit is ignored (R66) -/

theorem encodeR_fields (w : Word) :
    encodeR (funct7Of w) (rs2Of w) (rs1Of w) (funct3Of w) (rdOf w) (opcodeOf w) = w := by
  apply BitVec.eq_of_getLsbD_eq
  intro i hi
  simp only [encodeR, funct7Of, rs2Of, rs1Of, funct3Of, rdOf, opcodeOf, BitVec.getLsbD_append, BitVec.getLsbD_extractLsb']
  interval_cases i <;> simp

theorem encodeI_fields (w : Word) :
    encodeI (immIOf w) (rs1Of w) (funct3Of w) (rdOf w) (opcodeOf w) = w := by
  apply BitVec.eq_of_getLsbD_eq
  intro i hi
  simp only [encodeI, immIOf, rs1Of, funct3Of, rdOf, opcodeOf, BitVec.getLsbD_append, BitVec.getLsbD_extractLsb']
  interval_cases i <;> simp

theorem encodeS_fields (w : Word) :
    encodeS (immSOf w) (rs2Of w) (rs1Of w) (funct3Of w) (opcodeOf w) = w := by
  apply BitVec.eq_of_getLsbD_eq
  intro i hi
  simp only [encodeS, immSOf, rs2Of, rs1Of, funct3Of, opcodeOf, BitVec.getLsbD_append, BitVec.getLsbD_extractLsb']
  interval_cases i <;> simp

theorem encodeB_fields (w : Word) :
    encodeB (immBOf w) (rs2Of w) (rs1Of w) (funct3Of w) (opcodeOf w) = w := by
  apply BitVec.eq_of_getLsbD_eq
  intro i hi
  simp only [encodeB, immBOf, rs2Of, rs1Of, funct3Of, opcodeOf, BitVec.getLsbD_append, BitVec.getLsbD_extractLsb']
  interval_cases i <;> simp

theorem encodeU_fields (w : Word) :
    encodeU (immUOf w) (rdOf w) (opcodeOf w) = w := by
  apply BitVec.eq_of_getLsbD_eq
  intro i hi
  simp only [encodeU, immUOf, rdOf, opcodeOf, BitVec.getLsbD_append, BitVec.getLsbD_extractLsb']
  interval_cases i <;> simp

theorem encodeJ_fields (w : Word) :
    encodeJ (immJOf w) (rdOf w) (opcodeOf w) = w := by
  apply BitVec.eq_of_getLsbD_eq
  intro i hi
  simp only [encodeJ, immJOf, rdOf, opcodeOf, BitVec.getLsbD_append, BitVec.getLsbD_extractLsb']
  interval_cases i <;> simp

/-- The immediates of the branches and of JAL are even by construction (R56, R58). -/
theorem evenImm_immBOf (w : Word) : evenImm (immBOf w) = true := by
  rw [evenImm, immBOf, BitVec.getLsbD_append]; rfl

theorem evenImm_immJOf (w : Word) : evenImm (immJOf w) = true := by
  rw [evenImm, immJOf, BitVec.getLsbD_append]; rfl

/-- A word is its four bytes, little-endian (R30). -/
theorem wordOfBytes_bytes (w : Word) :
    wordOfBytes (w.extractLsb' 0 8) (w.extractLsb' 8 8) (w.extractLsb' 16 8) (w.extractLsb' 24 8) = w := by
  apply BitVec.eq_of_getLsbD_eq
  intro i hi
  simp only [wordOfBytes, BitVec.getLsbD_append, BitVec.getLsbD_extractLsb']
  interval_cases i <;> simp

/-! ### What the decoder can answer, family by family -/

/-- An alternative of the decoder: the instruction is this row's, or one of the rows after it. -/
theorem ok_of_ite {p : Prop} [Decidable p] {i j : Instr} {x : Except Reject Instr}
    (h : (if p then .ok j else x) = .ok i) : (p ∧ i = j) ∨ x = .ok i := by
  split at h
  · rename_i hp; cases h; exact .inl ⟨hp, rfl⟩
  · exact .inr h

/-- An alternative of the decoder that goes on to decode within a family. -/
theorem alt_of_ite {p : Prop} [Decidable p] {i : Instr} {x y : Except Reject Instr}
    (h : (if p then y else x) = .ok i) : (p ∧ y = .ok i) ∨ x = .ok i := by
  split at h
  · rename_i hp; exact .inl ⟨hp, h⟩
  · exact .inr h

/-- JALR has its selector (R60, D29). -/
theorem decodeJalr_ok {sel : BitVec 3} {w : Word} {i : Instr} (h : decodeJalr sel w = .ok i) :
    funct3Of w = sel ∧ i = .jalr (rdOf w) (rs1Of w) (immIOf w) := by
  unfold decodeJalr at h
  exact (ok_of_ite h).resolve_right nofun

/-- A decoded branch has its selector (R61 rows 5 to 10). -/
theorem decodeBranch_ok {sel : BranchSelectors} {w : Word} {i : Instr} (h : decodeBranch sel w = .ok i) :
    (funct3Of w = sel.beq ∧ i = .beq (rs1Of w) (rs2Of w) (immBOf w))
      ∨ (funct3Of w = sel.bne ∧ i = .bne (rs1Of w) (rs2Of w) (immBOf w))
      ∨ (funct3Of w = sel.blt ∧ i = .blt (rs1Of w) (rs2Of w) (immBOf w))
      ∨ (funct3Of w = sel.bge ∧ i = .bge (rs1Of w) (rs2Of w) (immBOf w))
      ∨ (funct3Of w = sel.bltu ∧ i = .bltu (rs1Of w) (rs2Of w) (immBOf w))
      ∨ (funct3Of w = sel.bgeu ∧ i = .bgeu (rs1Of w) (rs2Of w) (immBOf w)) := by
  unfold decodeBranch at h
  iterate 5 refine (ok_of_ite h).imp_right fun h => ?_
  exact (ok_of_ite h).resolve_right nofun

/-- A decoded load has its selector (R61 rows 11 to 15). -/
theorem decodeLoad_ok {sel : LoadSelectors} {w : Word} {i : Instr} (h : decodeLoad sel w = .ok i) :
    (funct3Of w = sel.lb ∧ i = .lb (rdOf w) (rs1Of w) (immIOf w))
      ∨ (funct3Of w = sel.lh ∧ i = .lh (rdOf w) (rs1Of w) (immIOf w))
      ∨ (funct3Of w = sel.lw ∧ i = .lw (rdOf w) (rs1Of w) (immIOf w))
      ∨ (funct3Of w = sel.lbu ∧ i = .lbu (rdOf w) (rs1Of w) (immIOf w))
      ∨ (funct3Of w = sel.lhu ∧ i = .lhu (rdOf w) (rs1Of w) (immIOf w)) := by
  unfold decodeLoad at h
  iterate 4 refine (ok_of_ite h).imp_right fun h => ?_
  exact (ok_of_ite h).resolve_right nofun

/-- A decoded store has its selector (R61 rows 16 to 18). -/
theorem decodeStore_ok {sel : StoreSelectors} {w : Word} {i : Instr} (h : decodeStore sel w = .ok i) :
    (funct3Of w = sel.sb ∧ i = .sb (rs2Of w) (rs1Of w) (immSOf w))
      ∨ (funct3Of w = sel.sh ∧ i = .sh (rs2Of w) (rs1Of w) (immSOf w))
      ∨ (funct3Of w = sel.sw ∧ i = .sw (rs2Of w) (rs1Of w) (immSOf w)) := by
  unfold decodeStore at h
  iterate 2 refine (ok_of_ite h).imp_right fun h => ?_
  exact (ok_of_ite h).resolve_right nofun

/-- A decoded SLLI has its top 7 bits (R62). -/
theorem decodeShiftLeftImm_ok {sel : OpImmSelectors} {w : Word} {i : Instr} (h : decodeShiftLeftImm sel w = .ok i) :
    funct7Of w = sel.slliTop ∧ i = .slli (rdOf w) (rs1Of w) (shamtOf w) := by
  unfold decodeShiftLeftImm at h
  exact (ok_of_ite h).resolve_right nofun

/-- A decoded right shift by an immediate has its top 7 bits (R62). -/
theorem decodeShiftRightImm_ok {sel : OpImmSelectors} {w : Word} {i : Instr} (h : decodeShiftRightImm sel w = .ok i) :
    (funct7Of w = sel.srliTop ∧ i = .srli (rdOf w) (rs1Of w) (shamtOf w))
      ∨ (funct7Of w = sel.sraiTop ∧ i = .srai (rdOf w) (rs1Of w) (shamtOf w)) := by
  unfold decodeShiftRightImm at h
  refine (ok_of_ite h).imp_right fun h => ?_
  exact (ok_of_ite h).resolve_right nofun

/-- A decoded immediate ALU instruction has its selector (R61 rows 19 to 27). -/
theorem decodeOpImm_ok {sel : OpImmSelectors} {w : Word} {i : Instr} (h : decodeOpImm sel w = .ok i) :
    (funct3Of w = sel.addi ∧ i = .addi (rdOf w) (rs1Of w) (immIOf w))
      ∨ (funct3Of w = sel.slti ∧ i = .slti (rdOf w) (rs1Of w) (immIOf w))
      ∨ (funct3Of w = sel.sltiu ∧ i = .sltiu (rdOf w) (rs1Of w) (immIOf w))
      ∨ (funct3Of w = sel.xori ∧ i = .xori (rdOf w) (rs1Of w) (immIOf w))
      ∨ (funct3Of w = sel.ori ∧ i = .ori (rdOf w) (rs1Of w) (immIOf w))
      ∨ (funct3Of w = sel.andi ∧ i = .andi (rdOf w) (rs1Of w) (immIOf w))
      ∨ (funct3Of w = sel.shiftLeft ∧ decodeShiftLeftImm sel w = .ok i)
      ∨ (funct3Of w = sel.shiftRight ∧ decodeShiftRightImm sel w = .ok i) := by
  unfold decodeOpImm at h
  iterate 6 refine (ok_of_ite h).imp_right fun h => ?_
  refine (alt_of_ite h).imp_right fun h => ?_
  exact (alt_of_ite h).resolve_right nofun

/-- A decoded register ALU instruction has its selector pair (R63). -/
theorem decodeOp_ok {sel : OpSelectors} {w : Word} {i : Instr} (h : decodeOp sel w = .ok i) :
    (selectorOf w = sel.add ∧ i = .add (rdOf w) (rs1Of w) (rs2Of w))
      ∨ (selectorOf w = sel.sub ∧ i = .sub (rdOf w) (rs1Of w) (rs2Of w))
      ∨ (selectorOf w = sel.sll ∧ i = .sll (rdOf w) (rs1Of w) (rs2Of w))
      ∨ (selectorOf w = sel.slt ∧ i = .slt (rdOf w) (rs1Of w) (rs2Of w))
      ∨ (selectorOf w = sel.sltu ∧ i = .sltu (rdOf w) (rs1Of w) (rs2Of w))
      ∨ (selectorOf w = sel.xor ∧ i = .xor (rdOf w) (rs1Of w) (rs2Of w))
      ∨ (selectorOf w = sel.srl ∧ i = .srl (rdOf w) (rs1Of w) (rs2Of w))
      ∨ (selectorOf w = sel.sra ∧ i = .sra (rdOf w) (rs1Of w) (rs2Of w))
      ∨ (selectorOf w = sel.or ∧ i = .or (rdOf w) (rs1Of w) (rs2Of w))
      ∨ (selectorOf w = sel.and ∧ i = .and (rdOf w) (rs1Of w) (rs2Of w)) := by
  unfold decodeOp at h
  iterate 9 refine (ok_of_ite h).imp_right fun h => ?_
  exact (ok_of_ite h).resolve_right nofun

/-- THE INVERSION LEMMA OF the decoder: the ECALL word, or an opcode of the table and what its family decodes to
(R59, R60). -/
theorem decodeWith_ok {c : Config} {w : Word} {i : Instr} (h : decodeWith c w = .ok i) :
    (w = c.ecallWord ∧ i = .ecall)
      ∨ (opcodeOf w = c.opcLui ∧ i = .lui (rdOf w) (immUOf w))
      ∨ (opcodeOf w = c.opcAuipc ∧ i = .auipc (rdOf w) (immUOf w))
      ∨ (opcodeOf w = c.opcJal ∧ i = .jal (rdOf w) (immJOf w))
      ∨ (opcodeOf w = c.opcJalr ∧ decodeJalr c.jalrSel w = .ok i)
      ∨ (opcodeOf w = c.opcBranch ∧ decodeBranch c.branchSel w = .ok i)
      ∨ (opcodeOf w = c.opcLoad ∧ decodeLoad c.loadSel w = .ok i)
      ∨ (opcodeOf w = c.opcStore ∧ decodeStore c.storeSel w = .ok i)
      ∨ (opcodeOf w = c.opcOpImm ∧ decodeOpImm c.opImmSel w = .ok i)
      ∨ (opcodeOf w = c.opcOp ∧ decodeOp c.opSel w = .ok i) := by
  unfold decodeWith at h
  iterate 4 refine (ok_of_ite h).imp_right fun h => ?_
  iterate 5 refine (alt_of_ite h).imp_right fun h => ?_
  refine (alt_of_ite h).resolve_right fun h => ?_
  split at h <;> cases h

end Sys2Proof
end

