-- ==== Sys2Proof/Laws/Memory.lean ====
section
/-! SUPPORT. The laws of the byte memory: a read after a write, the canonical form and the size bound kept by every
operation, equal memories from equal reads, and the little-endian accesses byte by byte. -/

namespace Sys2Proof.Machine

/-- Nothing below the first address of a canonical list is listed. -/
theorem Memory.read_below {lo a : Nat} {m : Memory} (h : Memory.wfFrom lo m = true) (ha : a < lo) :
    Memory.read m a = Memory.unlisted := by
  induction m generalizing lo with
  | nil => rfl
  | cons cell m ih =>
    obtain ⟨a', b⟩ := cell
    simp only [Memory.wfFrom, Bool.and_eq_true, decide_eq_true_eq] at h
    have hne : a' ≠ a := by omega
    simp only [Memory.read, hne, if_false]
    exact ih h.2 (by omega)

/-- The canonical form from a lower address. -/
theorem Memory.wfFrom_mono {lo lo' : Nat} {m : Memory} (h : Memory.wfFrom lo m = true) (hl : lo' ≤ lo) :
    Memory.wfFrom lo' m = true := by
  cases m with
  | nil => rfl
  | cons cell m =>
    obtain ⟨a', b⟩ := cell
    simp only [Memory.wfFrom, Bool.and_eq_true, decide_eq_true_eq] at h ⊢
    exact ⟨⟨by omega, h.1.2⟩, h.2⟩

/-- Putting a cell before a canonical list of higher addresses. -/
theorem Memory.cons_wfFrom {lo a : Nat} {b : Byte} {m : Memory} (hl : lo ≤ a)
    (h : Memory.wfFrom (a + 1) m = true) : Memory.wfFrom lo (Memory.cons a b m) = true := by
  unfold Memory.cons
  split
  · exact Memory.wfFrom_mono h (by omega)
  · rename_i hb
    simp [Memory.wfFrom, hl, hb, h]

/-- A write keeps the canonical form. -/
theorem Memory.write_wfFrom {lo a : Nat} {b : Byte} {m : Memory} (h : Memory.wfFrom lo m = true) (hl : lo ≤ a) :
    Memory.wfFrom lo (Memory.write m a b) = true := by
  induction m generalizing lo with
  | nil => exact Memory.cons_wfFrom hl rfl
  | cons cell m ih =>
    obtain ⟨a', b'⟩ := cell
    have h' := h
    simp only [Memory.wfFrom, Bool.and_eq_true, decide_eq_true_eq] at h'
    simp only [Memory.write]
    split
    · refine Memory.cons_wfFrom hl ?_
      simp only [Memory.wfFrom, Bool.and_eq_true, decide_eq_true_eq]
      exact ⟨⟨by omega, h'.1.2⟩, h'.2⟩
    · split
      · rename_i _ heq
        subst heq
        exact Memory.cons_wfFrom hl h'.2
      · simp only [Memory.wfFrom, Bool.and_eq_true, decide_eq_true_eq]
        exact ⟨⟨h'.1.1, h'.1.2⟩, ih h'.2 (by omega)⟩

/-- A write keeps the canonical form of a memory. -/
theorem Memory.write_wf {m : Memory} (h : Memory.wf m = true) (a : Nat) (b : Byte) :
    Memory.wf (Memory.write m a b) = true := Memory.write_wfFrom h (Nat.zero_le a)

/-- A little-endian write keeps the canonical form. -/
theorem Memory.writeLE_wf {m : Memory} (h : Memory.wf m = true) (a n : Nat) (v : Word) :
    Memory.wf (Memory.writeLE m a n v) = true := by
  induction n generalizing m a v with
  | zero => exact h
  | succ n ih => exact ih (Memory.write_wf h a _) _ _

/-- A loaded image is in canonical form. -/
theorem Memory.ofBytes_wfFrom (a : Nat) (bs : List Byte) : Memory.wfFrom a (Memory.ofBytes a bs) = true := by
  induction bs generalizing a with
  | nil => rfl
  | cons b bs ih => exact Memory.cons_wfFrom (Nat.le_refl a) (ih (a + 1))

/-- A loaded image at address 0 is in canonical form. -/
theorem Memory.ofBytes_wf (bs : List Byte) : Memory.wf (Memory.ofBytes 0 bs) = true := Memory.ofBytes_wfFrom 0 bs

/-- Putting a cell below the size keeps the size bound. -/
theorem Memory.cons_below {size a : Nat} {b : Byte} {m : Memory} (ha : a < size)
    (h : Memory.below size m = true) : Memory.below size (Memory.cons a b m) = true := by
  unfold Memory.cons
  split
  · exact h
  · simpa [Memory.below, ha] using h

/-- A write below the size keeps the size bound. -/
theorem Memory.write_below {size a : Nat} {b : Byte} {m : Memory} (h : Memory.below size m = true)
    (ha : a < size) : Memory.below size (Memory.write m a b) = true := by
  induction m with
  | nil => exact Memory.cons_below ha rfl
  | cons cell m ih =>
    have h' := h
    simp only [Memory.below, List.all_cons, Bool.and_eq_true] at h'
    simp only [Memory.write]
    split
    · exact Memory.cons_below ha h
    · split
      · exact Memory.cons_below ha h'.2
      · simp only [Memory.below, List.all_cons, Bool.and_eq_true]
        exact ⟨h'.1, ih h'.2⟩

/-- A little-endian write below the size keeps the size bound. -/
theorem Memory.writeLE_below {size : Nat} {m : Memory} (h : Memory.below size m = true) (a n : Nat) (v : Word)
    (ha : a + n ≤ size) : Memory.below size (Memory.writeLE m a n v) = true := by
  induction n generalizing m a v with
  | zero => exact h
  | succ n ih => exact ih (Memory.write_below h (by omega)) _ _ (by omega)

/-- A loaded image ends below its length. -/
theorem Memory.ofBytes_below (a : Nat) (bs : List Byte) {size : Nat} (h : a + bs.length ≤ size) :
    Memory.below size (Memory.ofBytes a bs) = true := by
  induction bs generalizing a with
  | nil => rfl
  | cons b bs ih =>
    simp only [List.length_cons] at h
    exact Memory.cons_below (by omega) (ih (a + 1) (by omega))

/-- Nothing is listed at or above the size bound. -/
theorem Memory.read_of_below {size a : Nat} {m : Memory} (h : Memory.below size m = true) (ha : size ≤ a) :
    Memory.read m a = Memory.unlisted := by
  induction m with
  | nil => rfl
  | cons cell m ih =>
    obtain ⟨a', b⟩ := cell
    simp only [Memory.below, List.all_cons, Bool.and_eq_true, decide_eq_true_eq] at h
    have hne : a' ≠ a := by omega
    simp only [Memory.read, hne, if_false]
    exact ih h.2

/-- The byte a cell adds, above a list that does not list its address. -/
theorem Memory.read_cons {a : Nat} {b : Byte} {m : Memory} (h : Memory.read m a = Memory.unlisted) (a' : Nat) :
    Memory.read (Memory.cons a b m) a' = if a' = a then b else Memory.read m a' := by
  unfold Memory.cons
  split
  · split
    · rename_i hb ha
      rw [ha, h, hb]
    · rfl
  · simp only [Memory.read, eq_comm]

/-- Read after write, at every address: the byte written where it was written, the old byte elsewhere. -/
theorem Memory.read_write {m : Memory} (h : Memory.wf m = true) (a : Nat) (b : Byte) (a' : Nat) :
    Memory.read (Memory.write m a b) a' = if a' = a then b else Memory.read m a' := by
  suffices hs : ∀ lo, Memory.wfFrom lo m = true →
      Memory.read (Memory.write m a b) a' = if a' = a then b else Memory.read m a' from hs 0 h
  clear h
  intro lo h
  induction m generalizing lo with
  | nil => exact Memory.read_cons rfl a'
  | cons cell m ih =>
    obtain ⟨c, b'⟩ := cell
    have h' := h
    simp only [Memory.wfFrom, Bool.and_eq_true, decide_eq_true_eq] at h'
    simp only [Memory.write]
    split
    · rename_i hlt
      refine Memory.read_cons (Memory.read_below (lo := c) ?_ hlt) a'
      simp only [Memory.wfFrom, Bool.and_eq_true, decide_eq_true_eq]
      exact ⟨⟨Nat.le_refl c, h'.1.2⟩, h'.2⟩
    · split
      · rename_i _ heq
        subst heq
        rw [Memory.read_cons (Memory.read_below h'.2 (Nat.lt_succ_self _))]
        simp only [Memory.read]
        split
        · rfl
        · rename_i hne
          simp [Ne.symm hne]
      · rename_i hn1 hn2
        simp only [Memory.read]
        rw [ih _ h'.2]
        split
        · rename_i hc
          subst hc
          simp [Ne.symm hn2]
        · rfl

/-- Two canonical memories that read the same at every address are the same list. -/
theorem Memory.eq_of_read {lo : Nat} {m m' : Memory} (h : Memory.wfFrom lo m = true)
    (h' : Memory.wfFrom lo m' = true) (hr : ∀ a, Memory.read m a = Memory.read m' a) : m = m' := by
  induction m generalizing lo m' with
  | nil =>
    cases m' with
    | nil => rfl
    | cons cell m' =>
      obtain ⟨a, b⟩ := cell
      simp only [Memory.wfFrom, Bool.and_eq_true, bne_iff_ne] at h'
      have := hr a
      simp [Memory.read] at this
      exact absurd this.symm h'.1.2
  | cons cell m ih =>
    obtain ⟨a, b⟩ := cell
    have hc := h
    simp only [Memory.wfFrom, Bool.and_eq_true, bne_iff_ne, decide_eq_true_eq] at hc
    cases m' with
    | nil =>
      have := hr a
      simp [Memory.read] at this
      exact absurd this hc.1.2
    | cons cell' m' =>
      obtain ⟨a', b'⟩ := cell'
      have hc' := h'
      simp only [Memory.wfFrom, Bool.and_eq_true, bne_iff_ne, decide_eq_true_eq] at hc'
      have haa : a = a' := by
        rcases Nat.lt_trichotomy a a' with hlt | heq | hgt
        · have := hr a
          simp only [Memory.read, if_true] at this
          rw [if_neg (by omega), Memory.read_below hc'.2 (by omega)] at this
          exact absurd this hc.1.2
        · exact heq
        · have := hr a'
          simp only [Memory.read, if_true] at this
          rw [if_neg (by omega), Memory.read_below hc.2 (by omega)] at this
          exact absurd this.symm hc'.1.2
      subst haa
      have hb : b = b' := by simpa [Memory.read] using hr a
      subst hb
      have hm : m = m' := by
        refine ih hc.2 hc'.2 fun x => ?_
        by_cases hx : a = x
        · subst hx
          rw [Memory.read_below hc.2 (Nat.lt_succ_self _), Memory.read_below hc'.2 (Nat.lt_succ_self _)]
        · simpa [Memory.read, hx] using hr x
      rw [hm]

/-- Bits of a little-endian read: bit `8k + j` is bit `j` of the byte at `a + k` (R30). -/
theorem Memory.readLE_getLsbD (m : Memory) (a n i : Nat) (hi : i < 8 * n) :
    (Memory.readLE m a n).getLsbD i = (Memory.read m (a + i / 8)).getLsbD (i % 8) := by
  induction n generalizing a i with
  | zero => omega
  | succ n ih =>
    have hstep : (Memory.readLE m a (n + 1)).getLsbD i
        = (Memory.readLE m (a + 1) n ++ Memory.read m a).getLsbD i := rfl
    rw [hstep, BitVec.getLsbD_append]
    split
    · rename_i h8
      have h0 : i / 8 = 0 := by omega
      have h1 : i % 8 = i := by omega
      rw [h0, h1, Nat.add_zero]
    · rename_i h8
      rw [ih (a + 1) (i - 8) (by omega)]
      have h0 : a + 1 + (i - 8) / 8 = a + i / 8 := by omega
      have h1 : (i - 8) % 8 = i % 8 := by omega
      rw [h0, h1]

/-- What every address reads after a little-endian write: byte `k` of the value at `a + k`, the old byte
elsewhere (R34). -/
theorem Memory.read_writeLE {m : Memory} (h : Memory.wf m = true) (a n : Nat) (v : Word) (a' : Nat) :
    Memory.read (Memory.writeLE m a n v) a'
      = if a ≤ a' ∧ a' < a + n then v.extractLsb' (8 * (a' - a)) 8 else Memory.read m a' := by
  induction n generalizing m a v with
  | zero => simp [Memory.writeLE]
  | succ n ih =>
    have hstep : Memory.writeLE m a (n + 1) v
        = Memory.writeLE (Memory.write m a (v.setWidth 8)) (a + 1) n (v >>> 8) := rfl
    rw [hstep, ih (Memory.write_wf h a _), Memory.read_write h]
    by_cases h1 : a + 1 ≤ a' ∧ a' < a + 1 + n
    · have h2 : a ≤ a' ∧ a' < a + (n + 1) := by omega
      rw [if_pos h1, if_pos h2]
      ext j hj
      simp only [BitVec.getElem_extractLsb', BitVec.getLsbD_ushiftRight]
      congr 1
      omega
    · rw [if_neg h1]
      by_cases h3 : a' = a
      · subst h3
        rw [if_pos rfl, if_pos (by omega)]
        ext j hj
        simp [BitVec.getElem_setWidth, BitVec.getElem_extractLsb']
      · rw [if_neg h3, if_neg (by omega)]

/-- A little-endian read of what a little-endian write of the same width wrote: the low bytes of the value
(R40). -/
theorem Memory.readLE_writeLE {m : Memory} (h : Memory.wf m = true) (a n : Nat) (v : Word) (hn : 8 * n ≤ 32) :
    Memory.readLE (Memory.writeLE m a n v) a n = v.setWidth (8 * n) := by
  apply BitVec.eq_of_getLsbD_eq
  intro i hi
  rw [Memory.readLE_getLsbD _ _ _ _ hi, Memory.read_writeLE h, if_pos (by omega)]
  simp only [BitVec.getLsbD_extractLsb', BitVec.getLsbD_setWidth]
  rw [show 8 * (a + i / 8 - a) + i % 8 = i by omega]
  simp [Nat.mod_lt i (by omega : 0 < 8), hi]

/-- The bytes of a buffer, by index (R36). -/
theorem Memory.bytes_eq_map (m : Memory) (a n : Nat) :
    Memory.bytes m a n = (List.range n).map fun k => Memory.read m (a + k) := by
  induction n generalizing a with
  | zero => rfl
  | succ n ih =>
    rw [Memory.bytes, ih, List.range_succ_eq_map, List.map_cons, List.map_map]
    refine congrArg₂ _ rfl (List.map_congr_left fun k _ => ?_)
    simp only [Function.comp]
    congr 1
    omega

/-- What a loaded image reads: its bytes, and the unlisted value elsewhere (R191). -/
theorem Memory.read_ofBytes (a : Nat) (bs : List Byte) (a' : Nat) :
    Memory.read (Memory.ofBytes a bs) a' = if a ≤ a' then (bs[a' - a]?).getD Memory.unlisted else Memory.unlisted := by
  induction bs generalizing a with
  | nil => simp [Memory.ofBytes, Memory.read]
  | cons b bs ih =>
    have hb : Memory.read (Memory.ofBytes (a + 1) bs) a = Memory.unlisted :=
      Memory.read_below (Memory.ofBytes_wfFrom (a + 1) bs) (Nat.lt_succ_self a)
    rw [Memory.ofBytes, Memory.read_cons hb, ih]
    rcases Nat.lt_trichotomy a' a with hlt | heq | hgt
    · rw [if_neg (by omega), if_neg (by omega), if_neg (by omega)]
    · subst heq; simp
    · rw [if_neg (by omega), if_pos (by omega), if_pos (by omega)]
      have : a' - a = (a' - (a + 1)) + 1 := by omega
      rw [this, List.getElem?_cons_succ]

end Sys2Proof.Machine
end

