-- ==== Sys2Proof/Laws/State.lean ====
section
/-! SUPPORT. One lemma per field per update of `State`, each true by `rfl`, so that no later proof unfolds a record
update. -/

namespace Sys2Proof.Machine

section
variable (s : State) (r : Reg) (v t : Word) (m : Memory) (st : RunStatus) (bs : List Byte)

@[simp] theorem State.setReg_pc : (s.setReg r v).pc = s.pc := rfl
@[simp] theorem State.setReg_regs : (s.setReg r v).regs = writeReg s.regs r v := rfl
@[simp] theorem State.setReg_mem : (s.setReg r v).mem = s.mem := rfl
@[simp] theorem State.setReg_memSize : (s.setReg r v).memSize = s.memSize := rfl
@[simp] theorem State.setReg_instret : (s.setReg r v).instret = s.instret := rfl
@[simp] theorem State.setReg_out : (s.setReg r v).out = s.out := rfl
@[simp] theorem State.setReg_status : (s.setReg r v).status = s.status := rfl
@[simp] theorem State.setReg_countOut : (s.setReg r v).countOut = s.countOut := rfl

@[simp] theorem State.setPc_pc : (s.setPc t).pc = t := rfl
@[simp] theorem State.setPc_regs : (s.setPc t).regs = s.regs := rfl
@[simp] theorem State.setPc_mem : (s.setPc t).mem = s.mem := rfl
@[simp] theorem State.setPc_memSize : (s.setPc t).memSize = s.memSize := rfl
@[simp] theorem State.setPc_instret : (s.setPc t).instret = s.instret := rfl
@[simp] theorem State.setPc_out : (s.setPc t).out = s.out := rfl
@[simp] theorem State.setPc_status : (s.setPc t).status = s.status := rfl
@[simp] theorem State.setPc_countOut : (s.setPc t).countOut = s.countOut := rfl

@[simp] theorem State.setMem_pc : (s.setMem m).pc = s.pc := rfl
@[simp] theorem State.setMem_regs : (s.setMem m).regs = s.regs := rfl
@[simp] theorem State.setMem_mem : (s.setMem m).mem = m := rfl
@[simp] theorem State.setMem_memSize : (s.setMem m).memSize = s.memSize := rfl
@[simp] theorem State.setMem_instret : (s.setMem m).instret = s.instret := rfl
@[simp] theorem State.setMem_out : (s.setMem m).out = s.out := rfl
@[simp] theorem State.setMem_status : (s.setMem m).status = s.status := rfl
@[simp] theorem State.setMem_countOut : (s.setMem m).countOut = s.countOut := rfl

@[simp] theorem State.setStatus_pc : (s.setStatus st).pc = s.pc := rfl
@[simp] theorem State.setStatus_regs : (s.setStatus st).regs = s.regs := rfl
@[simp] theorem State.setStatus_mem : (s.setStatus st).mem = s.mem := rfl
@[simp] theorem State.setStatus_memSize : (s.setStatus st).memSize = s.memSize := rfl
@[simp] theorem State.setStatus_instret : (s.setStatus st).instret = s.instret := rfl
@[simp] theorem State.setStatus_out : (s.setStatus st).out = s.out := rfl
@[simp] theorem State.setStatus_status : (s.setStatus st).status = st := rfl
@[simp] theorem State.setStatus_countOut : (s.setStatus st).countOut = s.countOut := rfl

@[simp] theorem State.emit_pc : (s.emit bs).pc = s.pc := rfl
@[simp] theorem State.emit_regs : (s.emit bs).regs = s.regs := rfl
@[simp] theorem State.emit_mem : (s.emit bs).mem = s.mem := rfl
@[simp] theorem State.emit_memSize : (s.emit bs).memSize = s.memSize := rfl
@[simp] theorem State.emit_instret : (s.emit bs).instret = s.instret := rfl
@[simp] theorem State.emit_out : (s.emit bs).out = s.out ++ bs := rfl
@[simp] theorem State.emit_status : (s.emit bs).status = s.status := rfl
@[simp] theorem State.emit_countOut : (s.emit bs).countOut = s.countOut := rfl

@[simp] theorem State.advance_pc : s.advance.pc = s.pc + 4#32 := rfl
@[simp] theorem State.advance_regs : s.advance.regs = s.regs := rfl
@[simp] theorem State.advance_mem : s.advance.mem = s.mem := rfl
@[simp] theorem State.advance_memSize : s.advance.memSize = s.memSize := rfl
@[simp] theorem State.advance_instret : s.advance.instret = s.instret := rfl
@[simp] theorem State.advance_out : s.advance.out = s.out := rfl
@[simp] theorem State.advance_status : s.advance.status = s.status := rfl
@[simp] theorem State.advance_countOut : s.advance.countOut = s.countOut := rfl

@[simp] theorem State.retire_pc : s.retire.pc = s.pc := rfl
@[simp] theorem State.retire_regs : s.retire.regs = s.regs := rfl
@[simp] theorem State.retire_mem : s.retire.mem = s.mem := rfl
@[simp] theorem State.retire_memSize : s.retire.memSize = s.memSize := rfl
@[simp] theorem State.retire_instret : s.retire.instret = s.instret + 1 := rfl
@[simp] theorem State.retire_out : s.retire.out = s.out := rfl
@[simp] theorem State.retire_status : s.retire.status = s.status := rfl
@[simp] theorem State.retire_countOut :
    s.retire.countOut = if s.status = .finished then some (s.instret + 1) else s.countOut := rfl

@[simp] theorem State.reg_setPc : (s.setPc t).reg r = s.reg r := rfl
@[simp] theorem State.reg_setMem : (s.setMem m).reg r = s.reg r := rfl
@[simp] theorem State.reg_setStatus : (s.setStatus st).reg r = s.reg r := rfl
@[simp] theorem State.reg_emit : (s.emit bs).reg r = s.reg r := rfl
@[simp] theorem State.reg_advance : s.advance.reg r = s.reg r := rfl
@[simp] theorem State.reg_retire : s.retire.reg r = s.reg r := rfl

variable (a : Nat)
@[simp] theorem State.byte_setReg : (s.setReg r v).byte a = s.byte a := rfl
@[simp] theorem State.byte_setPc : (s.setPc t).byte a = s.byte a := rfl
@[simp] theorem State.byte_setMem : (s.setMem m).byte a = Memory.read m a := rfl
@[simp] theorem State.byte_setStatus : (s.setStatus st).byte a = s.byte a := rfl
@[simp] theorem State.byte_emit : (s.emit bs).byte a = s.byte a := rfl
@[simp] theorem State.byte_advance : s.advance.byte a = s.byte a := rfl
@[simp] theorem State.byte_retire : s.retire.byte a = s.byte a := rfl

variable (n : Nat)
@[simp] theorem State.inBounds_setReg : (s.setReg r v).inBounds a n = s.inBounds a n := rfl
@[simp] theorem State.inBounds_setPc : (s.setPc t).inBounds a n = s.inBounds a n := rfl
@[simp] theorem State.inBounds_setMem : (s.setMem m).inBounds a n = s.inBounds a n := rfl
@[simp] theorem State.inBounds_setStatus : (s.setStatus st).inBounds a n = s.inBounds a n := rfl
@[simp] theorem State.inBounds_emit : (s.emit bs).inBounds a n = s.inBounds a n := rfl
@[simp] theorem State.inBounds_advance : s.advance.inBounds a n = s.inBounds a n := rfl
@[simp] theorem State.inBounds_retire : s.retire.inBounds a n = s.inBounds a n := rfl

end

end Sys2Proof.Machine
end

