-- ==== Sys2Proof/Laws/Ops.lean ====
section
/-! SUPPORT. The laws of the named operations: registers with the zero register, bounds, MemRead, MemWrite, the
buffer read and the fetch, each said once. -/

namespace Sys2Proof.Machine

/-- Register 0 reads as zero in every state (R11). -/
@[simp] theorem State.reg_zero (s : State) : s.reg 0#5 = 0#32 := rfl

/-- A write to register 0 changes nothing (R12). -/
@[simp] theorem State.setReg_zero (s : State) (v : Word) : s.setReg 0#5 v = s := rfl

/-- Every register after a register write (R11, R12). -/
theorem State.reg_setReg (s : State) (r r' : Reg) (v : Word) :
    (s.setReg r v).reg r' = if r' = r then (if r = 0#5 then 0#32 else v) else s.reg r' := by
  unfold State.reg readReg
  rw [State.setReg_regs]
  unfold writeReg
  by_cases h0 : r = 0#5
  · subst h0; by_cases h : r' = 0#5 <;> simp [h]
  · by_cases h' : r' = 0#5
    · subst h'; simp [Ne.symm h0]
    · simp only [h0, h', if_false]
      rw [Vector.getElem_set]
      by_cases h : r' = r
      · subst h; simp
      · have : r.toNat ≠ r'.toNat := fun e => h (BitVec.eq_of_toNat_eq e.symm)
        simp [h, this]

/-- The written register. -/
theorem State.reg_setReg_self (s : State) (r : Reg) (v : Word) :
    (s.setReg r v).reg r = if r = 0#5 then 0#32 else v := by rw [State.reg_setReg, if_pos rfl]

/-- Every other register. -/
theorem State.reg_setReg_ne (s : State) {r r' : Reg} (v : Word) (h : r' ≠ r) : (s.setReg r v).reg r' = s.reg r' := by
  rw [State.reg_setReg, if_neg h]

/-- Slot 0 of the register file is never written (R12). -/
theorem State.slot_zero_setReg (s : State) (r : Reg) (v : Word) : (s.setReg r v).regs[0] = s.regs[0] := by
  rw [State.setReg_regs]
  unfold writeReg
  split
  · rfl
  · rename_i h
    have : r.toNat ≠ 0 := fun e => h (BitVec.eq_of_toNat_eq (by simpa using e))
    rw [Vector.getElem_set_ne _ _ this]

/-- The bounds rule as a proposition (R32). -/
theorem State.inBounds_iff (s : State) (a n : Nat) : s.inBounds a n = true ↔ a + n ≤ s.memSize.toNat := by
  simp [State.inBounds]

/-- MemRead in bounds (R33). -/
theorem memRead_ok {s : State} {addr : Word} {n : Nat} (h : addr.toNat + n ≤ s.memSize.toNat) :
    memRead s addr n = .ok (Memory.readLE s.mem addr.toNat n) := by
  simp [memRead, State.inBounds, h]

/-- MemRead out of bounds (R33). -/
theorem memRead_error {s : State} {addr : Word} {n : Nat} (h : ¬ addr.toNat + n ≤ s.memSize.toNat) :
    memRead s addr n = .error .dataBounds := by
  simp [memRead, State.inBounds, h]

/-- MemWrite in bounds (R34). -/
theorem memWrite_ok {s : State} {addr : Word} {n : Nat} (v : Word) (h : addr.toNat + n ≤ s.memSize.toNat) :
    memWrite s addr n v = .ok (s.setMem (Memory.writeLE s.mem addr.toNat n v)) := by
  simp [memWrite, State.inBounds, h]

/-- MemWrite out of bounds (R34). -/
theorem memWrite_error {s : State} {addr : Word} {n : Nat} (v : Word) (h : ¬ addr.toNat + n ≤ s.memSize.toNat) :
    memWrite s addr n v = .error .dataBounds := by
  simp [memWrite, State.inBounds, h]

/-- The buffer read in bounds (R36). -/
theorem readBuffer_ok {s : State} {ptr len : Word} (h : ptr.toNat + len.toNat ≤ s.memSize.toNat) :
    readBuffer s ptr len = .ok ((List.range len.toNat).map fun k => s.byte (ptr.toNat + k)) := by
  simp [readBuffer, State.inBounds, h, Memory.bytes_eq_map, State.byte]

/-- The buffer read out of bounds (R36). -/
theorem readBuffer_error {s : State} {ptr len : Word} (h : ¬ ptr.toNat + len.toNat ≤ s.memSize.toNat) :
    readBuffer s ptr len = .error .syscallBounds := by
  simp [readBuffer, State.inBounds, h]

/-- What every address reads after a successful MemWrite (R34). -/
theorem State.byte_writeLE {s : State} (hwf : Memory.wf s.mem = true) (a n : Nat) (v : Word) (a' : Nat) :
    (s.setMem (Memory.writeLE s.mem a n v)).byte a'
      = if a ≤ a' ∧ a' < a + n then v.extractLsb' (8 * (a' - a)) 8 else s.byte a' :=
  Memory.read_writeLE hwf a n v a'

/-- The low two bits of the program counter are zero exactly when it is a multiple of 4. -/
theorem aligned_iff (pc : Word) : pc.extractLsb' 0 2 = 0#2 ↔ pc.toNat % 4 = 0 := by
  rw [← BitVec.toNat_inj]
  simp [BitVec.extractLsb'_toNat]

/-- A fetch that succeeds (R81). -/
theorem fetch_ok {s : State} (ha : s.pc.toNat % 4 = 0) (hb : s.pc.toNat + 4 ≤ s.memSize.toNat) :
    fetch s = .ok (Memory.readLE s.mem s.pc.toNat 4) := by
  have := (aligned_iff s.pc).2 ha
  simp [fetch, this, State.inBounds, hb]

/-- A misaligned fetch (R81). -/
theorem fetch_misaligned {s : State} (ha : s.pc.toNat % 4 ≠ 0) : fetch s = .error .fetchMisaligned := by
  have : s.pc.extractLsb' 0 2 ≠ 0#2 := fun h => ha ((aligned_iff s.pc).1 h)
  simp [fetch, this]

/-- An aligned fetch out of bounds (R81). -/
theorem fetch_outOfBounds {s : State} (ha : s.pc.toNat % 4 = 0) (hb : ¬ s.pc.toNat + 4 ≤ s.memSize.toNat) :
    fetch s = .error .fetchBounds := by
  have := (aligned_iff s.pc).2 ha
  simp [fetch, this, State.inBounds, hb]

/-- Everything a fetch can answer (R81). -/
theorem fetch_cases {s : State} {w : Word} (h : fetch s = .ok w) :
    s.pc.toNat % 4 = 0 ∧ s.pc.toNat + 4 ≤ s.memSize.toNat ∧ w = Memory.readLE s.mem s.pc.toNat 4 := by
  by_cases ha : s.pc.toNat % 4 = 0
  · by_cases hb : s.pc.toNat + 4 ≤ s.memSize.toNat
    · rw [fetch_ok ha hb] at h
      exact ⟨ha, hb, (Except.ok.inj h).symm⟩
    · rw [fetch_outOfBounds ha hb] at h; cases h
  · rw [fetch_misaligned ha] at h; cases h

end Sys2Proof.Machine
end

