-- ==== Sys2Proof/Laws/Exec.lean ====
section
/-! SUPPORT. What an instruction can do and what a step can do, each said once: the inversion lemmas from which
every whole-machine property is derived. -/

namespace Sys2Proof.Machine

/-- Everything an instruction that answers a next state can have done to the state it was given. -/
inductive Effect (s : State) : State → Prop where
  | wroteReg (rd : Reg) (v : Word) : Effect s (s.setReg rd v)
  | jumped (rd : Reg) (target : Word) (even : s.pc.getLsbD 0 = false → target.getLsbD 0 = false) :
      Effect s ((s.setReg rd s.pc).setPc target)
  | branched (target : Word) (even : s.pc.getLsbD 0 = false → target.getLsbD 0 = false) :
      Effect s (s.setPc target)
  | nothing : Effect s s
  | stored (a n : Nat) (v : Word) (inside : a + n ≤ s.memSize.toNat) :
      Effect s (s.setMem (Memory.writeLE s.mem a n v))
  | wroteOut (bs : List Byte) : Effect s (s.emit bs)
  | exited : Effect s (s.setStatus .finished)

/-- A load answers a register write or raises. -/
theorem loadOp_cases (n : Nat) (ext : BitVec (8 * n) → Word) (rd rs1 : Reg) (imm : BitVec 12) (s : State) :
    (∃ v, loadOp n ext rd rs1 imm s = .next (s.setReg rd v)) ∨ loadOp n ext rd rs1 imm s = raise .dataBounds s := by
  unfold loadOp
  by_cases h : (effAddr s rs1 imm).toNat + n ≤ s.memSize.toNat
  · rw [memRead_ok h]; exact .inl ⟨_, rfl⟩
  · rw [memRead_error h]; exact .inr rfl

/-- A store answers a memory write in bounds or raises. -/
theorem storeOp_cases (n : Nat) (rs2 rs1 : Reg) (imm : BitVec 12) (s : State) :
    ((effAddr s rs1 imm).toNat + n ≤ s.memSize.toNat ∧ storeOp n rs2 rs1 imm s
        = .next (s.setMem (Memory.writeLE s.mem (effAddr s rs1 imm).toNat n (s.reg rs2))))
      ∨ storeOp n rs2 rs1 imm s = raise .dataBounds s := by
  unfold storeOp
  by_cases h : (effAddr s rs1 imm).toNat + n ≤ s.memSize.toNat
  · rw [memWrite_ok _ h]; exact .inl ⟨h, rfl⟩
  · rw [memWrite_error _ h]; exact .inr rfl

/-- A load that answers a next state has written its destination, and nothing else. -/
theorem loadOp_next {n : Nat} {ext : BitVec (8 * n) → Word} {rd rs1 : Reg} {imm : BitVec 12} {s t : State}
    (h : loadOp n ext rd rs1 imm s = .next t) : ∃ v, t = s.setReg rd v := by
  rcases loadOp_cases n ext rd rs1 imm s with ⟨v, e⟩ | e <;> rw [e] at h <;> cases h
  exact ⟨v, rfl⟩

/-- A store that answers a next state was in bounds and has written its bytes, and nothing else. -/
theorem storeOp_next {n : Nat} {rs2 rs1 : Reg} {imm : BitVec 12} {s t : State}
    (h : storeOp n rs2 rs1 imm s = .next t) : (effAddr s rs1 imm).toNat + n ≤ s.memSize.toNat
      ∧ t = s.setMem (Memory.writeLE s.mem (effAddr s rs1 imm).toNat n (s.reg rs2)) := by
  rcases storeOp_cases n rs2 rs1 imm s with ⟨hb, e⟩ | e <;> rw [e] at h <;> cases h
  exact ⟨hb, rfl⟩

/-- The environment call exits, writes out, or raises (R160). -/
theorem ecallWith_cases (c : Config) (s : State) :
    (s.reg c.syscallNumReg = c.exitSentinel ∧ ecallWith c s = .next (s.setStatus .finished))
      ∨ (s.reg c.syscallNumReg ≠ c.exitSentinel ∧ s.reg c.syscallNumReg = sysWriteNum ∧
          ∃ bs, readBuffer s (s.reg c.writePtrReg) (s.reg c.writeLenReg) = .ok bs ∧ ecallWith c s = .next (s.emit bs))
      ∨ (s.reg c.syscallNumReg ≠ c.exitSentinel ∧ s.reg c.syscallNumReg = sysWriteNum ∧
          readBuffer s (s.reg c.writePtrReg) (s.reg c.writeLenReg) = .error .syscallBounds ∧
          ecallWith c s = raise .syscallBounds s)
      ∨ (s.reg c.syscallNumReg ≠ c.exitSentinel ∧ s.reg c.syscallNumReg ≠ sysWriteNum ∧
          ecallWith c s = raise .syscall s) := by
  unfold ecallWith
  by_cases h1 : s.reg c.syscallNumReg = c.exitSentinel
  · rw [if_pos h1]; exact .inl ⟨h1, rfl⟩
  · rw [if_neg h1]
    by_cases h2 : s.reg c.syscallNumReg = sysWriteNum
    · rw [if_pos h2]
      by_cases hb : (s.reg c.writePtrReg).toNat + (s.reg c.writeLenReg).toNat ≤ s.memSize.toNat
      · rw [writeCall, readBuffer_ok hb]; exact .inr (.inl ⟨h1, h2, _, rfl, rfl⟩)
      · rw [writeCall, readBuffer_error hb]; exact .inr (.inr (.inl ⟨h1, h2, rfl, rfl⟩))
    · rw [if_neg h2]; exact .inr (.inr (.inr ⟨h1, h2, rfl⟩))

/-- Bit 0 of a sum of even words. -/
theorem even_add {a b : Word} (ha : a.getLsbD 0 = false) (hb : b.getLsbD 0 = false) : (a + b).getLsbD 0 = false := by
  simp only [BitVec.getLsbD, Nat.testBit_zero, BitVec.toNat_add, decide_eq_false_iff_not] at *
  omega

/-- The indirect target is even: bit 0 is cleared (R101). -/
theorem indirectTarget_even (s : State) (rs1 : Reg) (imm : BitVec 12) :
    (indirectTarget s rs1 imm).getLsbD 0 = false := by
  simp [indirectTarget]

/-- A relative target is even when the base and the immediate are (R58, R56). -/
theorem relTarget_even {n : Nat} (hn : 0 < n) {s : State} {imm : BitVec n} (hi : evenImm imm = true)
    (hp : s.pc.getLsbD 0 = false) : (relTarget s imm).getLsbD 0 = false := by
  refine even_add hp ?_
  simp only [evenImm, Bool.not_eq_true'] at hi
  rw [sext, BitVec.getLsbD_signExtend, if_pos hn, hi, Bool.and_false]

/-- A load that answers has written a register. -/
theorem Effect.of_loadOp {n : Nat} {ext : BitVec (8 * n) → Word} {rd rs1 : Reg} {imm : BitVec 12} {s t : State}
    (h : loadOp n ext rd rs1 imm s = .next t) : Effect s t := by
  obtain ⟨v, rfl⟩ := loadOp_next h
  exact .wroteReg _ _

/-- A store that answers has stored. -/
theorem Effect.of_storeOp {n : Nat} {rs2 rs1 : Reg} {imm : BitVec 12} {s t : State}
    (h : storeOp n rs2 rs1 imm s = .next t) : Effect s t := by
  obtain ⟨hb, rfl⟩ := storeOp_next h
  exact .stored _ _ _ hb

/-- A branch sets the program counter or does nothing (R105). -/
theorem Effect.of_branchIf {taken : Bool} {imm : BitVec 13} {s t : State} (hi : evenImm imm = true)
    (h : branchIf taken imm s = .next t) : Effect s t := by
  cases taken
  · cases h; exact .nothing
  · cases h; exact .branched _ (relTarget_even (by decide) hi)

/-- An environment call that answers has exited or written out (R165). -/
theorem Effect.of_ecallWith {c : Config} {s t : State} (h : ecallWith c s = .next t) : Effect s t := by
  rcases ecallWith_cases c s with ⟨_, e⟩ | ⟨_, _, bs, _, e⟩ | ⟨_, _, _, e⟩ | ⟨_, _, e⟩ <;> rw [e] at h <;> cases h
  · exact .exited
  · exact .wroteOut _

/-- THE INVERSION LEMMA OF exec: what a well-formed instruction that answers a next state has done. -/
theorem exec_effect {i : Instr} {s t : State} (hi : i.wellFormed = true) (h : exec i s = .next t) : Effect s t := by
  cases i
  case lui => cases h; exact .wroteReg _ _
  case auipc => cases h; exact .wroteReg _ _
  case jal => cases h; exact .jumped _ _ (relTarget_even (by decide) hi)
  case jalr => cases h; exact .jumped _ _ fun _ => indirectTarget_even s _ _
  case beq => exact .of_branchIf hi h
  case bne => exact .of_branchIf hi h
  case blt => exact .of_branchIf hi h
  case bge => exact .of_branchIf hi h
  case bltu => exact .of_branchIf hi h
  case bgeu => exact .of_branchIf hi h
  case lb => exact .of_loadOp h
  case lh => exact .of_loadOp h
  case lw => exact .of_loadOp h
  case lbu => exact .of_loadOp h
  case lhu => exact .of_loadOp h
  case sb => exact .of_storeOp h
  case sh => exact .of_storeOp h
  case sw => exact .of_storeOp h
  case ecall => exact .of_ecallWith h
  all_goals (cases h; exact .wroteReg _ _)

/-- An environment call answers a next state or raises, whatever the parameters. -/
theorem ecallWith_answers (c : Config) (s : State) :
    (∃ t, ecallWith c s = .next t) ∨ ∃ r, ecallWith c s = raise r s := by
  rcases ecallWith_cases c s with ⟨_, e⟩ | ⟨_, _, bs, _, e⟩ | ⟨_, _, _, e⟩ | ⟨_, _, e⟩
  · exact .inl ⟨_, e⟩
  · exact .inl ⟨_, e⟩
  · exact .inr ⟨_, e⟩
  · exact .inr ⟨_, e⟩

/-- Whatever an instruction answers but a next state is an error raised on the state it was given: it is refused
nowhere (R86). -/
theorem exec_cases (i : Instr) (s : State) : (∃ t, exec i s = .next t) ∨ ∃ r, exec i s = raise r s := by
  have hl : ∀ n ext rd rs1 imm, (∃ t, loadOp n ext rd rs1 imm s = .next t) ∨ ∃ r, loadOp n ext rd rs1 imm s = raise r s := by
    intro n ext rd rs1 imm
    rcases loadOp_cases n ext rd rs1 imm s with ⟨_, e⟩ | e
    · exact .inl ⟨_, e⟩
    · exact .inr ⟨_, e⟩
  have hs : ∀ n rs2 rs1 imm, (∃ t, storeOp n rs2 rs1 imm s = .next t) ∨ ∃ r, storeOp n rs2 rs1 imm s = raise r s := by
    intro n rs2 rs1 imm
    rcases storeOp_cases n rs2 rs1 imm s with ⟨_, e⟩ | e
    · exact .inl ⟨_, e⟩
    · exact .inr ⟨_, e⟩
  cases i
  case lb => exact hl _ _ _ _ _
  case lh => exact hl _ _ _ _ _
  case lw => exact hl _ _ _ _ _
  case lbu => exact hl _ _ _ _ _
  case lhu => exact hl _ _ _ _ _
  case sb => exact hs _ _ _ _
  case sh => exact hs _ _ _ _
  case sw => exact hs _ _ _ _
  case ecall => exact ecallWith_answers params s
  all_goals exact .inl ⟨_, rfl⟩

/-- The dispatch at the default parameters is `exec`. -/
theorem execWith_params (i : Instr) (s : State) : execWith params i s = exec i s := by
  cases i <;> rfl

/-- `execWith` by what it is: AUIPC and ECALL at their parameters, `exec` for the others. -/
theorem execWith_eq (c : Config) (i : Instr) (s : State) :
    (∃ rd imm20, i = .auipc rd imm20 ∧ execWith c i s = auipcWith c.auipcBase rd imm20 s)
      ∨ (i = .ecall ∧ execWith c i s = ecallWith c s) ∨ execWith c i s = exec i s := by
  cases i
  case auipc rd imm20 => exact .inl ⟨rd, imm20, rfl, rfl⟩
  case ecall => exact .inr (.inl ⟨rfl, rfl⟩)
  all_goals exact .inr (.inr rfl)

/-- Whatever the parameters, an instruction answers a next state or raises. -/
theorem execWith_cases (c : Config) (i : Instr) (s : State) :
    (∃ t, execWith c i s = .next t) ∨ ∃ r, execWith c i s = raise r s := by
  rcases execWith_eq c i s with ⟨rd, imm20, _, e⟩ | ⟨_, e⟩ | e <;> rw [e]
  · exact .inl ⟨_, rfl⟩
  · exact ecallWith_answers c s
  · exact exec_cases i s

/-- Whatever the parameters, what a well-formed instruction that answers a next state has done. -/
theorem execWith_effect {c : Config} {i : Instr} {s t : State} (hi : i.wellFormed = true)
    (h : execWith c i s = .next t) : Effect s t := by
  rcases execWith_eq c i s with ⟨rd, imm20, _, e⟩ | ⟨_, e⟩ | e <;> rw [e] at h
  · cases h; exact .wroteReg _ _
  · exact .of_ecallWith h
  · exact exec_effect hi h

/-! ### The step, for any dispatch that answers a next state or raises -/

section
variable {c : Config} {ex : Instr → State → Result}
  (hex : ∀ i s, (∃ t, ex i s = .next t) ∨ ∃ r, ex i s = raise r s)

/-- A step of a running state that fetches and decodes is the retired answer of the instruction (R80). -/
theorem cycleWith_of_decode {s : State} {w : Word} {i : Instr} (hs : s.status = .running) (hf : fetch s = .ok w)
    (hd : decodeWith c w = .ok i) : cycleWith c ex s = retireResult (ex i s.advance) := by
  simp [cycleWith, hs, hf, dispatchWord, hd]

/-- A step of a running state whose word is unknown (R64). -/
theorem cycleWith_of_reject {s : State} {w : Word} {x : Reject} (hs : s.status = .running) (hf : fetch s = .ok w)
    (hd : decodeWith c w = .error x) : cycleWith c ex s = raise .decode s.advance := by
  simp [cycleWith, hs, hf, dispatchWord, hd, raise, retireResult]

/-- A step of a running state whose fetch fails (R81). -/
theorem cycleWith_of_fetch_error {s : State} {r : ErrorReason} (hs : s.status = .running) (hf : fetch s = .error r) :
    cycleWith c ex s = raise r s := by
  simp [cycleWith, hs, hf]

/-- A state that is not Running takes no step (R21). -/
theorem cycleWith_ended {s : State} (h : s.status ≠ .running) : cycleWith c ex s = .fault .runEnded := by
  unfold cycleWith
  cases hs : s.status with
  | running => exact absurd hs h
  | finished => rfl
  | error r => rfl

include hex

/-- Next state: the step ran a decoded instruction on the advanced state and retired it. -/
theorem cycleWith_next {s t : State} (h : cycleWith c ex s = .next t) :
    s.status = .running
      ∧ ∃ w i u, fetch s = .ok w ∧ decodeWith c w = .ok i ∧ ex i s.advance = .next u ∧ t = u.retire := by
  by_cases hs : s.status = .running
  · refine ⟨hs, ?_⟩
    cases hf : fetch s with
    | error r => rw [cycleWith_of_fetch_error hs hf] at h; cases h
    | ok w =>
      cases hd : decodeWith c w with
      | error x => rw [cycleWith_of_reject hs hf hd] at h; cases h
      | ok i =>
        rw [cycleWith_of_decode hs hf hd] at h
        rcases hex i s.advance with ⟨u, e⟩ | ⟨r, e⟩ <;> rw [e] at h <;> cases h
        exact ⟨w, i, u, rfl, hd, e, rfl⟩
  · rw [cycleWith_ended hs] at h; cases h

/-- Error: a fetch error on the state itself, or an error of the decode stage or of the instruction on the advanced
state (R86). -/
theorem cycleWith_error {s a : State} {r : ErrorReason} (h : cycleWith c ex s = .fault (.error r a)) :
    s.status = .running ∧
      ((fetch s = .error r ∧ a = s.setStatus (.error r)) ∨
        (∃ w, fetch s = .ok w ∧ a = s.advance.setStatus (.error r) ∧
          (((∃ x, decodeWith c w = .error x) ∧ r = .decode)
            ∨ ∃ i, decodeWith c w = .ok i ∧ ex i s.advance = raise r s.advance))) := by
  by_cases hs : s.status = .running
  · refine ⟨hs, ?_⟩
    cases hf : fetch s with
    | error r' => rw [cycleWith_of_fetch_error hs hf] at h; cases h; exact .inl ⟨rfl, rfl⟩
    | ok w =>
      cases hd : decodeWith c w with
      | error x =>
        rw [cycleWith_of_reject hs hf hd] at h; cases h
        exact .inr ⟨w, rfl, rfl, .inl ⟨⟨x, hd⟩, rfl⟩⟩
      | ok i =>
        rw [cycleWith_of_decode hs hf hd] at h
        rcases hex i s.advance with ⟨u, e⟩ | ⟨r', e⟩ <;> rw [e] at h <;> cases h
        exact .inr ⟨w, rfl, rfl, .inr ⟨i, hd, e⟩⟩
  · rw [cycleWith_ended hs] at h; cases h

end

/-- The step at the default parameters is `step`. -/
theorem stepWith_params (s : State) : stepWith params s = step s := by
  have : execWith params = exec := funext fun i => funext fun s => execWith_params i s
  rw [stepWith, this]; rfl

/-- THE INVERSION LEMMA OF step, next state. -/
theorem step_next {s t : State} (h : step s = .next t) :
    s.status = .running
      ∧ ∃ w i u, fetch s = .ok w ∧ decode w = .ok i ∧ exec i s.advance = .next u ∧ t = u.retire :=
  cycleWith_next exec_cases h

/-- THE INVERSION LEMMA OF step, error. -/
theorem step_error {s a : State} {r : ErrorReason} (h : step s = .fault (.error r a)) :
    s.status = .running ∧
      ((fetch s = .error r ∧ a = s.setStatus (.error r)) ∨
        (∃ w, fetch s = .ok w ∧ a = s.advance.setStatus (.error r) ∧
          (((∃ x, decode w = .error x) ∧ r = .decode)
            ∨ ∃ i, decode w = .ok i ∧ exec i s.advance = raise r s.advance))) :=
  cycleWith_error exec_cases h

/-- THE INVERSION LEMMA OF stepWith, next state. -/
theorem stepWith_next {c : Config} {s t : State} (h : stepWith c s = .next t) :
    s.status = .running
      ∧ ∃ w i u, fetch s = .ok w ∧ decodeWith c w = .ok i ∧ execWith c i s.advance = .next u ∧ t = u.retire :=
  cycleWith_next (execWith_cases c) h

/-- A step of a running state that fetches and decodes is the retired answer of the instruction (R80). -/
theorem step_of_decode {s : State} {w : Word} {i : Instr} (hs : s.status = .running) (hf : fetch s = .ok w)
    (hd : decode w = .ok i) : step s = retireResult (exec i s.advance) :=
  cycleWith_of_decode hs hf hd

end Sys2Proof.Machine
end

