-- ==== Sys2Proof/Laws/Loader.lean ====
section
/-! SUPPORT. The laws of the Program Loader (spec/70_reset_and_hazards.md R190 to R193). -/

namespace Sys2Proof.Machine

/-- Everything the loader can answer: LoaderError, or the boot state of a blob that is long enough and whose memory is
small enough (R191, R192). -/
theorem loadWith_cases (c : Config) (blob : List Byte) :
    ((blob.length < trailerLen ∨ 2 ^ 32 ≤ loadedSize blob) ∧ loadWith c blob = .refused .loaderError)
      ∨ (trailerLen ≤ blob.length ∧ loadedSize blob < 2 ^ 32 ∧ loadWith c blob
        = .next (State.boot c (Memory.ofBytes 0 (imageOf blob)) (BitVec.ofNat 32 (loadedSize blob)))) := by
  unfold loadWith
  by_cases h1 : blob.length < trailerLen
  · exact .inl ⟨.inl h1, if_pos h1⟩
  · by_cases h2 : 2 ^ 32 ≤ loadedSize blob
    · exact .inl ⟨.inr h2, by rw [if_neg h1, if_pos h2]⟩
    · exact .inr ⟨Nat.le_of_not_lt h1, Nat.lt_of_not_le h2, by rw [if_neg h1, if_neg h2]⟩

/-- MEM_SIZE of a loaded machine as a number (R191). -/
theorem loadedSize_toNat {blob : List Byte} (h : loadedSize blob < 2 ^ 32) :
    (BitVec.ofNat 32 (loadedSize blob)).toNat = loadedSize blob := by
  rw [BitVec.toNat_ofNat, Nat.mod_eq_of_lt h]

end Sys2Proof.Machine
end

