-- ==== Sys2Proof/Laws/PerInstr.lean ====
section
/-! SUPPORT. Statements made per instruction: one lemma per constructor of `Instr`. -/

namespace Sys2Proof

/-! ### A row's mask clears exactly the operand bits -/

theorem mask_encodeR (f7 : BitVec 7) (rs2 rs1 : Reg) (f3 : BitVec 3) (rd : Reg) (op : BitVec 7) :
    encodeR f7 rs2 rs1 f3 rd op &&& 0xFE00707F#32 = encodeR f7 0#5 0#5 f3 0#5 op := by
  apply BitVec.eq_of_getLsbD_eq
  intro i hi
  simp only [encodeR, BitVec.getLsbD_and, BitVec.getLsbD_append]
  interval_cases i <;> simp

theorem mask_encodeI (imm : BitVec 12) (rs1 : Reg) (f3 : BitVec 3) (rd : Reg) (op : BitVec 7) :
    encodeI imm rs1 f3 rd op &&& 0x0000707F#32 = encodeI 0#12 0#5 f3 0#5 op := by
  apply BitVec.eq_of_getLsbD_eq
  intro i hi
  simp only [encodeI, BitVec.getLsbD_and, BitVec.getLsbD_append]
  interval_cases i <;> simp

theorem mask_encodeS (imm : BitVec 12) (rs2 rs1 : Reg) (f3 : BitVec 3) (op : BitVec 7) :
    encodeS imm rs2 rs1 f3 op &&& 0x0000707F#32 = encodeS 0#12 0#5 0#5 f3 op := by
  apply BitVec.eq_of_getLsbD_eq
  intro i hi
  simp only [encodeS, BitVec.getLsbD_and, BitVec.getLsbD_append, BitVec.getLsbD_extractLsb']
  interval_cases i <;> simp

theorem mask_encodeB (imm : BitVec 13) (rs2 rs1 : Reg) (f3 : BitVec 3) (op : BitVec 7) :
    encodeB imm rs2 rs1 f3 op &&& 0x0000707F#32 = encodeB 0#13 0#5 0#5 f3 op := by
  apply BitVec.eq_of_getLsbD_eq
  intro i hi
  simp only [encodeB, BitVec.getLsbD_and, BitVec.getLsbD_append, BitVec.getLsbD_extractLsb']
  interval_cases i <;> simp

theorem mask_encodeU (imm : BitVec 20) (rd : Reg) (op : BitVec 7) :
    encodeU imm rd op &&& 0x0000007F#32 = encodeU 0#20 0#5 op := by
  apply BitVec.eq_of_getLsbD_eq
  intro i hi
  simp only [encodeU, BitVec.getLsbD_and, BitVec.getLsbD_append]
  interval_cases i <;> simp

theorem mask_encodeJ (imm : BitVec 21) (rd : Reg) (op : BitVec 7) :
    encodeJ imm rd op &&& 0x0000007F#32 = encodeJ 0#21 0#5 op := by
  apply BitVec.eq_of_getLsbD_eq
  intro i hi
  simp only [encodeJ, BitVec.getLsbD_and, BitVec.getLsbD_append, BitVec.getLsbD_extractLsb']
  interval_cases i <;> simp

/-- The word of the instruction lies in its row of the opcode table: (word AND mask) = match (spec/30_encoding.md
R61). -/
def Laws.TableRow.Statement (i : Instr) : Prop := encode i &&& rowMask i = rowMatch i

theorem Laws.TableRow.lui (rd : Reg) (imm20 : BitVec 20) : Statement (.lui rd imm20) :=
  (mask_encodeU _ _ _).trans rfl

theorem Laws.TableRow.auipc (rd : Reg) (imm20 : BitVec 20) : Statement (.auipc rd imm20) :=
  (mask_encodeU _ _ _).trans rfl

theorem Laws.TableRow.jal (rd : Reg) (imm : BitVec 21) : Statement (.jal rd imm) :=
  (mask_encodeJ _ _ _).trans rfl

theorem Laws.TableRow.jalr (rd rs1 : Reg) (imm : BitVec 12) : Statement (.jalr rd rs1 imm) :=
  (mask_encodeI _ _ _ _ _).trans rfl

theorem Laws.TableRow.beq (rs1 rs2 : Reg) (imm : BitVec 13) : Statement (.beq rs1 rs2 imm) :=
  (mask_encodeB _ _ _ _ _).trans rfl

theorem Laws.TableRow.bne (rs1 rs2 : Reg) (imm : BitVec 13) : Statement (.bne rs1 rs2 imm) :=
  (mask_encodeB _ _ _ _ _).trans rfl

theorem Laws.TableRow.blt (rs1 rs2 : Reg) (imm : BitVec 13) : Statement (.blt rs1 rs2 imm) :=
  (mask_encodeB _ _ _ _ _).trans rfl

theorem Laws.TableRow.bge (rs1 rs2 : Reg) (imm : BitVec 13) : Statement (.bge rs1 rs2 imm) :=
  (mask_encodeB _ _ _ _ _).trans rfl

theorem Laws.TableRow.bltu (rs1 rs2 : Reg) (imm : BitVec 13) : Statement (.bltu rs1 rs2 imm) :=
  (mask_encodeB _ _ _ _ _).trans rfl

theorem Laws.TableRow.bgeu (rs1 rs2 : Reg) (imm : BitVec 13) : Statement (.bgeu rs1 rs2 imm) :=
  (mask_encodeB _ _ _ _ _).trans rfl

theorem Laws.TableRow.lb (rd rs1 : Reg) (imm : BitVec 12) : Statement (.lb rd rs1 imm) :=
  (mask_encodeI _ _ _ _ _).trans rfl

theorem Laws.TableRow.lh (rd rs1 : Reg) (imm : BitVec 12) : Statement (.lh rd rs1 imm) :=
  (mask_encodeI _ _ _ _ _).trans rfl

theorem Laws.TableRow.lw (rd rs1 : Reg) (imm : BitVec 12) : Statement (.lw rd rs1 imm) :=
  (mask_encodeI _ _ _ _ _).trans rfl

theorem Laws.TableRow.lbu (rd rs1 : Reg) (imm : BitVec 12) : Statement (.lbu rd rs1 imm) :=
  (mask_encodeI _ _ _ _ _).trans rfl

theorem Laws.TableRow.lhu (rd rs1 : Reg) (imm : BitVec 12) : Statement (.lhu rd rs1 imm) :=
  (mask_encodeI _ _ _ _ _).trans rfl

theorem Laws.TableRow.sb (rs2 rs1 : Reg) (imm : BitVec 12) : Statement (.sb rs2 rs1 imm) :=
  (mask_encodeS _ _ _ _ _).trans rfl

theorem Laws.TableRow.sh (rs2 rs1 : Reg) (imm : BitVec 12) : Statement (.sh rs2 rs1 imm) :=
  (mask_encodeS _ _ _ _ _).trans rfl

theorem Laws.TableRow.sw (rs2 rs1 : Reg) (imm : BitVec 12) : Statement (.sw rs2 rs1 imm) :=
  (mask_encodeS _ _ _ _ _).trans rfl

theorem Laws.TableRow.addi (rd rs1 : Reg) (imm : BitVec 12) : Statement (.addi rd rs1 imm) :=
  (mask_encodeI _ _ _ _ _).trans rfl

theorem Laws.TableRow.slti (rd rs1 : Reg) (imm : BitVec 12) : Statement (.slti rd rs1 imm) :=
  (mask_encodeI _ _ _ _ _).trans rfl

theorem Laws.TableRow.sltiu (rd rs1 : Reg) (imm : BitVec 12) : Statement (.sltiu rd rs1 imm) :=
  (mask_encodeI _ _ _ _ _).trans rfl

theorem Laws.TableRow.xori (rd rs1 : Reg) (imm : BitVec 12) : Statement (.xori rd rs1 imm) :=
  (mask_encodeI _ _ _ _ _).trans rfl

theorem Laws.TableRow.ori (rd rs1 : Reg) (imm : BitVec 12) : Statement (.ori rd rs1 imm) :=
  (mask_encodeI _ _ _ _ _).trans rfl

theorem Laws.TableRow.andi (rd rs1 : Reg) (imm : BitVec 12) : Statement (.andi rd rs1 imm) :=
  (mask_encodeI _ _ _ _ _).trans rfl

theorem Laws.TableRow.slli (rd rs1 : Reg) (shamt : BitVec 5) : Statement (.slli rd rs1 shamt) :=
  (mask_encodeR _ _ _ _ _ _).trans rfl

theorem Laws.TableRow.srli (rd rs1 : Reg) (shamt : BitVec 5) : Statement (.srli rd rs1 shamt) :=
  (mask_encodeR _ _ _ _ _ _).trans rfl

theorem Laws.TableRow.srai (rd rs1 : Reg) (shamt : BitVec 5) : Statement (.srai rd rs1 shamt) :=
  (mask_encodeR _ _ _ _ _ _).trans rfl

theorem Laws.TableRow.add (rd rs1 rs2 : Reg) : Statement (.add rd rs1 rs2) :=
  (mask_encodeR _ _ _ _ _ _).trans rfl

theorem Laws.TableRow.sub (rd rs1 rs2 : Reg) : Statement (.sub rd rs1 rs2) :=
  (mask_encodeR _ _ _ _ _ _).trans rfl

theorem Laws.TableRow.sll (rd rs1 rs2 : Reg) : Statement (.sll rd rs1 rs2) :=
  (mask_encodeR _ _ _ _ _ _).trans rfl

theorem Laws.TableRow.slt (rd rs1 rs2 : Reg) : Statement (.slt rd rs1 rs2) :=
  (mask_encodeR _ _ _ _ _ _).trans rfl

theorem Laws.TableRow.sltu (rd rs1 rs2 : Reg) : Statement (.sltu rd rs1 rs2) :=
  (mask_encodeR _ _ _ _ _ _).trans rfl

theorem Laws.TableRow.xor (rd rs1 rs2 : Reg) : Statement (.xor rd rs1 rs2) :=
  (mask_encodeR _ _ _ _ _ _).trans rfl

theorem Laws.TableRow.srl (rd rs1 rs2 : Reg) : Statement (.srl rd rs1 rs2) :=
  (mask_encodeR _ _ _ _ _ _).trans rfl

theorem Laws.TableRow.sra (rd rs1 rs2 : Reg) : Statement (.sra rd rs1 rs2) :=
  (mask_encodeR _ _ _ _ _ _).trans rfl

theorem Laws.TableRow.or (rd rs1 rs2 : Reg) : Statement (.or rd rs1 rs2) :=
  (mask_encodeR _ _ _ _ _ _).trans rfl

theorem Laws.TableRow.and (rd rs1 rs2 : Reg) : Statement (.and rd rs1 rs2) :=
  (mask_encodeR _ _ _ _ _ _).trans rfl

theorem Laws.TableRow.ecall : Statement .ecall := rfl

end Sys2Proof
end

