-- ==== Sys2Proof/Laws/Run.lean ====
section
/-! SUPPORT. The laws of runs: what one more step, or one more unit of fuel, does (spec/40_step_cycle.md R87). -/

namespace Sys2Proof.Machine

/-- A state that is not Running takes no step (R21). -/
theorem step_ended {s : State} (h : s.status ≠ .running) : step s = .fault .runEnded := cycleWith_ended h

/-- A Running state answers a next state or an error: there is no other stop (R80). -/
theorem step_running {s : State} (h : s.status = .running) :
    (∃ t, step s = .next t) ∨ ∃ r a, step s = .fault (.error r a) := by
  cases hf : fetch s with
  | error r => exact .inr ⟨r, _, cycleWith_of_fetch_error h hf⟩
  | ok w =>
    cases hd : decode w with
    | error x => exact .inr ⟨.decode, _, cycleWith_of_reject h hf hd⟩
    | ok i =>
      rw [step_of_decode h hf hd]
      rcases exec_cases i s.advance with ⟨u, e⟩ | ⟨r, e⟩
      · exact .inl ⟨u.retire, by rw [e]; rfl⟩
      · exact .inr ⟨r, s.advance.setStatus (.error r), by rw [e]; rfl⟩

/-- One step more, next state. -/
theorem core_run_next {s t : State} (k : Nat) (h : step s = .next t) : core.run (k + 1) s = core.run k t := by
  have h' : core.step s = .next t := h
  simp only [Host.Core.run, h']

/-- One step more, fault. -/
theorem core_run_fault {s : State} {f : Fault} (k : Nat) (h : step s = .fault f) : core.run (k + 1) s = .fault f := by
  have h' : core.step s = .fault f := h
  simp only [Host.Core.run, h']

/-- One unit of fuel more, next state (R87). -/
theorem runFor_next {s t : State} (n : Nat) (h : step s = .next t) : runFor (n + 1) s = runFor n t := by
  rw [runFor, runBy, h]; rfl

/-- One unit of fuel more, error: the run is over (R87). -/
theorem runFor_error {s a : State} {r : ErrorReason} (n : Nat) (h : step s = .fault (.error r a)) :
    runFor (n + 1) s = a := by
  rw [runFor, runBy, h]

/-- Fuel given to an ended run changes nothing (R21). -/
theorem runFor_ended {s : State} (n : Nat) (h : s.status ≠ .running) : runFor n s = s := by
  cases n with
  | zero => rfl
  | succ n => rw [runFor, runBy, step_ended h]

/-- The run at the default parameters is `runFor`. -/
theorem runForWith_params (n : Nat) (s : State) : runForWith params n s = runFor n s := by
  rw [runForWith, runFor, show stepWith params = step from funext stepWith_params]

end Sys2Proof.Machine
end

