-- ==== Sys2Proof/Tests/Slice0.lean ====
section
/-! SUPPORT. Tests. Expected results come from the spec: the words are written out from the formats of
spec/30_encoding.md R52 and the table of R61; the results are those of the vectors V1 to V164 and the programs of
spec/95_test_vectors.md, named at each test; a few are worked out by hand from a rule, and say so. The last part
shows, for every statement with hypotheses, a state and operands that meet them, at the ends of their ranges. -/

open Sys2Proof Sys2Proof.Machine Sys2Proof.Slice0

namespace Sys2Proof.Tests

/-! ### Helpers -/

/-- The start state of the vectors: `pc` 8, MEM_SIZE 0x100, everything else 0. -/
def bare : State :=
  { pc := 8#32, regs := Vector.replicate 32 0#32, mem := [], memSize := 0x100#32, instret := 0, out := [],
    status := .running, countOut := none }

/-- Registers set. -/
def withRegs (rs : List (Reg × Word)) (s : State) : State := rs.foldl (fun s p => s.setReg p.1 p.2) s

/-- Four bytes of memory set, the lowest address the least significant. -/
def poke (a : Nat) (v : Word) (s : State) : State := s.setMem (Memory.writeLE s.mem a 4 v)

/-- The vectors' state with an instruction word at 8 and registers set. -/
def ready (w : Nat) (rs : List (Reg × Word)) : State := withRegs rs (bare.withFetchWord 32 w)

/-- The bytes 01 7F FF 80 at 0x5C, as the load vectors have them. -/
def loadReady (w : Nat) (rs : List (Reg × Word)) : State := poke 0x5C 0x80FF7F01#32 (ready w rs)

/-- Something of the next state of a step. -/
def after {α : Type} (f : State → α) (s : State) : Option α :=
  match step s with
  | .next t => some (f t)
  | .fault _ => none
  | .refused _ => none

/-- The program counter and one register of the next state. -/
def pcAndReg (r : Reg) (s : State) : Option (Word × Word) := after (fun t => (t.pc, t.reg r)) s

/-- The error of a step, with the program counter and the counter it leaves. -/
def failure (s : State) : Option (ErrorReason × Word × Nat) :=
  match step s with
  | .next _ => none
  | .fault (.error r a) => some (r, a.pc, a.instret)
  | .fault .runEnded => none
  | .refused _ => none

/-- Other parameters: opcodes, selectors, top 7 bits, the AUIPC base, the system-call registers and the sentinel. -/
def renumbered : Config :=
  { params with
    opcLui := 1#7
    opcOp := 0x37#7
    jalrSel := 7#3
    storeSel := { sb := 2#3, sh := 1#3, sw := 0#3 }
    opImmSel := { params.opImmSel with slliTop := 3#7, srliTop := 4#7 }
    opSel := { params.opSel with add := ⟨0#3, 1#7⟩, sub := ⟨0#3, 0#7⟩ }
    syscallNumReg := 5#5
    exitSentinel := 2#32
    writePtrReg := 6#5
    writeLenReg := 7#5
    auipcBase := .next
    resetRegValue := 9#32 }

/-! ### WellFormed refuses what has no encoding (R56, R58) -/

theorem test_wellFormed_jal_odd : (Instr.jal 1#5 3#21).wellFormed = false := by decide
theorem test_wellFormed_beq_odd : (Instr.beq 1#5 2#5 1#13).wellFormed = false := by decide
theorem test_wellFormed_bne_odd : (Instr.bne 1#5 2#5 5#13).wellFormed = false := by decide
theorem test_wellFormed_blt_odd : (Instr.blt 1#5 2#5 0x1FFF#13).wellFormed = false := by decide
theorem test_wellFormed_bge_odd : (Instr.bge 1#5 2#5 0x1001#13).wellFormed = false := by decide
theorem test_wellFormed_bltu_odd : (Instr.bltu 1#5 2#5 7#13).wellFormed = false := by decide
theorem test_wellFormed_bgeu_odd : (Instr.bgeu 1#5 2#5 9#13).wellFormed = false := by decide
theorem test_wellFormed_even :
    (Instr.jal 1#5 0x100000#21).wellFormed = true ∧ (Instr.beq 1#5 2#5 0x1000#13).wellFormed = true
      ∧ (Instr.bgeu 1#5 2#5 0x0FFE#13).wellFormed = true := by decide

/-! ### Every constructor's decoding, its word written out field by field (R52, R61) -/

theorem test_decode_lui : decode 0b10000000111111111000_00101_0110111#32 = .ok (.lui 5#5 0x80FF8#20) := by decide
theorem test_decode_auipc : decode 0b11111111111111111111_00101_0010111#32 = .ok (.auipc 5#5 0xFFFFF#20) := by decide
/-- 0x3441206F, immediate 0x12344: bits 20, 10:1, 11, 19:12. -/
theorem test_decode_jal : decode 0b0_0110100010_0_00010010_00000_1101111#32 = .ok (.jal 0#5 0x12344#21) := by decide
/-- 0x0010006F, immediate 2048: the lone word[20] is immediate bit 11. -/
theorem test_decode_jal_bit11 : decode 0b0_0000000000_1_00000000_00000_1101111#32 = .ok (.jal 0#5 2048#21) := by decide
theorem test_decode_jalr : decode 0b111111111100_00101_000_00110_1100111#32 = .ok (.jalr 6#5 5#5 0xFFC#12) := by decide
/-- 0x2A2085E3, immediate 2730: bits 12, 10:5, 4:1, 11. -/
theorem test_decode_beq : decode 0b0_010101_00010_00001_000_0101_1_1100011#32 = .ok (.beq 1#5 2#5 2730#13) := by decide
theorem test_decode_bne : decode 0b1_111111_00110_00101_001_1010_1_1100011#32 = .ok (.bne 5#5 6#5 0x1FF4#13) := by decide
theorem test_decode_blt : decode 0b0_000000_00110_00101_100_0100_0_1100011#32 = .ok (.blt 5#5 6#5 8#13) := by decide
theorem test_decode_bge : decode 0b0_000000_00110_00101_101_0100_0_1100011#32 = .ok (.bge 5#5 6#5 8#13) := by decide
theorem test_decode_bltu : decode 0b0_000000_00110_00101_110_0100_0_1100011#32 = .ok (.bltu 5#5 6#5 8#13) := by decide
theorem test_decode_bgeu : decode 0b0_000000_00110_00101_111_0000_1_1100011#32 = .ok (.bgeu 5#5 6#5 2048#13) := by decide
theorem test_decode_lb : decode 0b000000000011_00010_000_00110_0000011#32 = .ok (.lb 6#5 2#5 3#12) := by decide
theorem test_decode_lh : decode 0b000000000010_00010_001_11100_0000011#32 = .ok (.lh 28#5 2#5 2#12) := by decide
theorem test_decode_lw : decode 0b111111111100_00010_010_00110_0000011#32 = .ok (.lw 6#5 2#5 0xFFC#12) := by decide
theorem test_decode_lbu : decode 0b000000000010_00010_100_00111_0000011#32 = .ok (.lbu 7#5 2#5 2#12) := by decide
theorem test_decode_lhu : decode 0b000000000000_00010_101_11101_0000011#32 = .ok (.lhu 29#5 2#5 0#12) := by decide
theorem test_decode_sb : decode 0b0000000_00101_00010_000_00101_0100011#32 = .ok (.sb 5#5 2#5 5#12) := by decide
theorem test_decode_sh : decode 0b0000000_00101_00010_001_00110_0100011#32 = .ok (.sh 5#5 2#5 6#12) := by decide
/-- 0x0253A2A3, immediate 37: the pieces 11:5 and 4:0 both nonzero. -/
theorem test_decode_sw : decode 0b0000001_00101_00111_010_00101_0100011#32 = .ok (.sw 5#5 7#5 37#12) := by decide
theorem test_decode_addi : decode 0b100000000000_00110_000_00101_0010011#32 = .ok (.addi 5#5 6#5 0x800#12) := by decide
theorem test_decode_slti : decode 0b111111111111_00110_010_00101_0010011#32 = .ok (.slti 5#5 6#5 0xFFF#12) := by decide
theorem test_decode_sltiu : decode 0b000000000001_00110_011_00101_0010011#32 = .ok (.sltiu 5#5 6#5 1#12) := by decide
theorem test_decode_xori : decode 0b000100100011_00110_100_00101_0010011#32 = .ok (.xori 5#5 6#5 0x123#12) := by decide
theorem test_decode_ori : decode 0b000100100011_00110_110_00101_0010011#32 = .ok (.ori 5#5 6#5 0x123#12) := by decide
theorem test_decode_andi : decode 0b111111110000_00110_111_00101_0010011#32 = .ok (.andi 5#5 6#5 0xFF0#12) := by decide
theorem test_decode_slli : decode 0b0000000_11111_00110_001_00101_0010011#32 = .ok (.slli 5#5 6#5 31#5) := by decide
theorem test_decode_srli : decode 0b0000000_00100_00110_101_00101_0010011#32 = .ok (.srli 5#5 6#5 4#5) := by decide
theorem test_decode_srai : decode 0b0100000_00100_00110_101_00101_0010011#32 = .ok (.srai 5#5 6#5 4#5) := by decide
theorem test_decode_add : decode 0b0000000_00111_00110_000_00101_0110011#32 = .ok (.add 5#5 6#5 7#5) := by decide
theorem test_decode_sub : decode 0b0100000_00111_00110_000_00101_0110011#32 = .ok (.sub 5#5 6#5 7#5) := by decide
theorem test_decode_sll : decode 0b0000000_00111_00110_001_00101_0110011#32 = .ok (.sll 5#5 6#5 7#5) := by decide
theorem test_decode_slt : decode 0b0000000_00111_00110_010_00101_0110011#32 = .ok (.slt 5#5 6#5 7#5) := by decide
theorem test_decode_sltu : decode 0b0000000_00111_00110_011_00101_0110011#32 = .ok (.sltu 5#5 6#5 7#5) := by decide
theorem test_decode_xor : decode 0b0000000_00111_00110_100_00101_0110011#32 = .ok (.xor 5#5 6#5 7#5) := by decide
theorem test_decode_srl : decode 0b0000000_00111_00110_101_00101_0110011#32 = .ok (.srl 5#5 6#5 7#5) := by decide
theorem test_decode_sra : decode 0b0100000_00111_00110_101_00101_0110011#32 = .ok (.sra 5#5 6#5 7#5) := by decide
theorem test_decode_or : decode 0b0000000_00111_00110_110_00101_0110011#32 = .ok (.or 5#5 6#5 7#5) := by decide
theorem test_decode_and : decode 0b0000000_00111_00110_111_00101_0110011#32 = .ok (.and 5#5 6#5 7#5) := by decide
theorem test_decode_ecall : decode 0b000000000000_00000_000_00000_1110011#32 = .ok .ecall := by decide

/-! ### The unknown words, one of each case of R64, by name; the words are those of the vectors -/

theorem test_reject_unknownOpcode : decode 0x0FF0000F#32 = .error .unknownOpcode
    ∧ decode 0x00000000#32 = .error .unknownOpcode ∧ decode 0xFFFFFFFF#32 = .error .unknownOpcode := by decide
theorem test_reject_notTheEcallWord : decode 0x00100073#32 = .error .notTheEcallWord
    ∧ decode 0x000000F3#32 = .error .notTheEcallWord := by decide
theorem test_reject_jalrSelector : decode 0x004010E7#32 = .error .jalrSelector := by decide
theorem test_reject_branchSelector : decode 0x0062A463#32 = .error .branchSelector
    ∧ decode 0x0062B463#32 = .error .branchSelector := by decide
theorem test_reject_loadSelector : decode 0x00013303#32 = .error .loadSelector
    ∧ decode 0x00016303#32 = .error .loadSelector ∧ decode 0x00017303#32 = .error .loadSelector := by decide
theorem test_reject_storeSelector : decode 0x00513023#32 = .error .storeSelector
    ∧ decode 0x00517023#32 = .error .storeSelector := by decide
theorem test_reject_shiftLeftUpperBits : decode 0x02031293#32 = .error .shiftLeftUpperBits
    ∧ decode 0x40431293#32 = .error .shiftLeftUpperBits := by decide
theorem test_reject_shiftRightTopBits : decode 0x20435293#32 = .error .shiftRightTopBits
    ∧ decode 0x02435293#32 = .error .shiftRightTopBits := by decide
theorem test_reject_aluSelector : decode 0x027302B3#32 = .error .aluSelector
    ∧ decode 0x407312B3#32 = .error .aluSelector ∧ decode 0x807302B3#32 = .error .aluSelector := by decide
theorem test_reject_tooFewBytes : decodeBytes [0x13#8, 0x00#8, 0x00#8] = .error .tooFewBytes := by decide

/-- Four bytes are one word, the byte at the lowest address the least significant, and the rest is left (P1's first
word, B7 58 58 45). -/
theorem test_decodeBytes :
    decodeBytes [0xB7#8, 0x58#8, 0x58#8, 0x45#8, 0x93#8] = .ok (.lui 17#5 0x45585#20, [0x93#8]) := by decide

/-- The encoder on words of the programs. -/
theorem test_encode :
    encode (.jal 1#5 16#21) = 0x010000EF#32 ∧ encode (.bne 11#5 0#5 0x1FF4#13) = 0xFE059AE3#32
      ∧ encode (.sw 5#5 2#5 0xFFC#12) = 0xFE512E23#32 ∧ encode (.srai 5#5 6#5 31#5) = 0x41F35293#32
      ∧ encodeBytes (.addi 17#5 17#5 0x954#12) = [0x93#8, 0x88#8, 0x48#8, 0x95#8] := by decide

theorem test_decodeTableWord :
    decodeTableWord 32 0x00A00593 = some (.addi 11#5 0#5 10#12) ∧ decodeTableWord 32 0x0000000F = none
      ∧ decodeTableWord 8 0x33 = some (.add 0#5 0#5 0#5) := by decide

/-! ### One step of each instruction -/

/-- V1. -/
theorem test_lui : pcAndReg 5#5 (ready 0xFFFFF2B7 []) = some (0xC#32, 0xFFFFF000#32) := by decide
/-- V3: a write to register 0. -/
theorem test_lui_x0 : pcAndReg 0#5 (ready 0x12345037 []) = some (0xC#32, 0#32) := by decide
/-- V7: 8 + 0x1000. -/
theorem test_auipc : pcAndReg 5#5 (ready 0x00001297 []) = some (0xC#32, 0x1008#32) := by decide
/-- By hand from R96: 8 + 0xFFFFF000 modulo 2^32. -/
theorem test_auipc_high : pcAndReg 5#5 (ready 0xFFFFF297 []) = some (0xC#32, 0xFFFFF008#32) := by decide
/-- V13: `pc_next` 0xC plus 2, and the link. -/
theorem test_jal : pcAndReg 5#5 (ready 0x002002EF []) = some (0xE#32, 0xC#32) := by decide
/-- V14: the target wraps below zero. -/
theorem test_jal_wraps : pcAndReg 0#5 (ready 0xFF1FF06F []) = some (0xFFFFFFFC#32, 0#32) := by decide
/-- V20: rd = rs1, the old x1 is used. -/
theorem test_jalr_same_register : pcAndReg 1#5 (ready 0x008080E7 [(1#5, 0x40#32)]) = some (0x48#32, 0xC#32) := by decide
/-- V19: bit 0 of the target is cleared. -/
theorem test_jalr_clears_bit0 : pcAndReg 0#5 (ready 0x00028067 [(5#5, 0x13#32)]) = some (0x12#32, 0#32) := by decide
/-- V23. -/
theorem test_beq_not_taken : pcAndReg 0#5 (ready 0x00628463 [(5#5, 0xFFFFFFFF#32), (6#5, 1#32)]) = some (0xC#32, 0#32) := by
  decide
/-- V43: taken, backwards to itself. -/
theorem test_beq_taken : pcAndReg 0#5 (ready 0xFE000EE3 []) = some (8#32, 0#32) := by decide
/-- V26. -/
theorem test_bne_taken : pcAndReg 0#5 (ready 0x00629463 [(5#5, 0xFFFFFFFF#32), (6#5, 1#32)]) = some (0x14#32, 0#32) := by
  decide
/-- By hand from R107: equal registers. -/
theorem test_bne_not_taken : pcAndReg 0#5 (ready 0x00629463 [(5#5, 7#32), (6#5, 7#32)]) = some (0xC#32, 0#32) := by
  decide
/-- V41. -/
theorem test_blt_taken :
    pcAndReg 0#5 (ready 0x0062C463 [(5#5, 0x80000000#32), (6#5, 0x7FFFFFFF#32)]) = some (0x14#32, 0#32) := by decide
/-- V30. -/
theorem test_blt_not_taken : pcAndReg 0#5 (ready 0x0062C463 [(5#5, 1#32), (6#5, 0xFFFFFFFF#32)]) = some (0xC#32, 0#32) := by
  decide
/-- V33. -/
theorem test_bge_taken : pcAndReg 0#5 (ready 0x0062D463 [(5#5, 1#32), (6#5, 0xFFFFFFFF#32)]) = some (0x14#32, 0#32) := by
  decide
/-- V32. -/
theorem test_bge_not_taken : pcAndReg 0#5 (ready 0x0062D463 [(5#5, 0xFFFFFFFF#32), (6#5, 1#32)]) = some (0xC#32, 0#32) := by
  decide
/-- V36. -/
theorem test_bltu_taken : pcAndReg 0#5 (ready 0x0062E463 [(5#5, 1#32), (6#5, 0xFFFFFFFF#32)]) = some (0x14#32, 0#32) := by
  decide
/-- V42: the operands of V41, read as unsigned. -/
theorem test_bltu_not_taken :
    pcAndReg 0#5 (ready 0x0062E463 [(5#5, 0x80000000#32), (6#5, 0x7FFFFFFF#32)]) = some (0xC#32, 0#32) := by decide
/-- By hand from R111: equal registers. -/
theorem test_bgeu_taken : pcAndReg 0#5 (ready 0x0062F463 [(5#5, 7#32), (6#5, 7#32)]) = some (0x14#32, 0#32) := by decide
/-- V39. -/
theorem test_bgeu_not_taken : pcAndReg 0#5 (ready 0x0062F463 [(5#5, 1#32), (6#5, 0xFFFFFFFF#32)]) = some (0xC#32, 0#32) := by
  decide
/-- V52. -/
theorem test_lb_signed : pcAndReg 6#5 (loadReady 0x00310303 [(2#5, 0x5C#32)]) = some (0xC#32, 0xFFFFFF80#32) := by decide
/-- V63: the address 0xFFFFFFFF is out of bounds, not wrapped. -/
theorem test_lb_out_of_bounds : failure (ready 0xFFF00303 [(6#5, 0x55#32)]) = some (.dataBounds, 0xC#32, 0) := by decide
/-- V54. -/
theorem test_lh_signed : pcAndReg 6#5 (loadReady 0x00211303 [(2#5, 0x5C#32)]) = some (0xC#32, 0xFFFF80FF#32) := by decide
/-- V56: misaligned. -/
theorem test_lh_misaligned : pcAndReg 6#5 (loadReady 0x00111303 [(2#5, 0x5C#32)]) = some (0xC#32, 0xFFFFFF7F#32) := by decide
/-- V57. -/
theorem test_lw : pcAndReg 6#5 (loadReady 0xFFC12303 [(2#5, 0x60#32)]) = some (0xC#32, 0x80FF7F01#32) := by decide
/-- V64: the bounds check happens for rd = 0. -/
theorem test_lw_x0_out_of_bounds : failure (ready 0x00012003 [(2#5, 0x100#32)]) = some (.dataBounds, 0xC#32, 0) := by decide
/-- V53. -/
theorem test_lbu : pcAndReg 6#5 (loadReady 0x00314303 [(2#5, 0x5C#32)]) = some (0xC#32, 0x80#32) := by decide
/-- V55. -/
theorem test_lhu : pcAndReg 6#5 (loadReady 0x00215303 [(2#5, 0x5C#32)]) = some (0xC#32, 0x80FF#32) := by decide
/-- V71. -/
theorem test_sb : after (fun t => (t.byte 0x60, t.byte 0x61, t.byte 0x62)) (ready 0x005102A3 [(2#5, 0x5C#32), (5#5, 0x80FF7F01#32)])
    = some (0#8, 1#8, 0#8) := by decide
/-- V72. -/
theorem test_sh_misaligned :
    after (fun t => (t.byte 0x5D, t.byte 0x5E, t.byte 0x5F)) (ready 0x005110A3 [(2#5, 0x5C#32), (5#5, 0x80FF7F01#32)])
      = some (1#8, 0x7F#8, 0#8) := by decide
/-- V75: the last word of memory. -/
theorem test_sw :
    after (fun t => (t.byte 0xFC, t.byte 0xFD, t.byte 0xFE, t.byte 0xFF)) (ready 0xFE512E23 [(2#5, 0x100#32), (5#5, 0xDEADBEEF#32)])
      = some (0xEF#8, 0xBE#8, 0xAD#8, 0xDE#8) := by decide
/-- V76: one byte past it. -/
theorem test_sw_out_of_bounds :
    failure (ready 0xFE512EA3 [(2#5, 0x100#32), (5#5, 0xDEADBEEF#32)]) = some (.dataBounds, 0xC#32, 0) := by decide
/-- V83. -/
theorem test_addi : pcAndReg 5#5 (ready 0x7FF30293 [(6#5, 0x7FFFFFFF#32)]) = some (0xC#32, 0x800007FE#32) := by decide
/-- V85: a source that is also the destination, and a wrap. -/
theorem test_addi_wraps : pcAndReg 5#5 (ready 0x00128293 [(5#5, 0xFFFFFFFF#32)]) = some (0xC#32, 0#32) := by decide
/-- V88. -/
theorem test_slti_less : pcAndReg 5#5 (ready 0xFFF32293 [(6#5, 0x80000000#32)]) = some (0xC#32, 1#32) := by decide
/-- V89. -/
theorem test_slti_equal : pcAndReg 5#5 (ready 0xFFF32293 [(6#5, 0xFFFFFFFF#32), (5#5, 9#32)]) = some (0xC#32, 0#32) := by
  decide
/-- V91: the immediate is sign-extended, then unsigned. -/
theorem test_sltiu_less : pcAndReg 5#5 (ready 0xFFF33293 [(6#5, 0x7FFFFFFF#32)]) = some (0xC#32, 1#32) := by decide
/-- V94. -/
theorem test_sltiu_equal : pcAndReg 5#5 (ready 0x00033293 [(5#5, 9#32)]) = some (0xC#32, 0#32) := by decide
/-- V95. -/
theorem test_xori : pcAndReg 5#5 (ready 0xFFF34293 [(6#5, 0x0F0F1234#32)]) = some (0xC#32, 0xF0F0EDCB#32) := by decide
/-- V98. -/
theorem test_ori : pcAndReg 5#5 (ready 0x80036293 [(6#5, 1#32)]) = some (0xC#32, 0xFFFFF801#32) := by decide
/-- V100. -/
theorem test_andi : pcAndReg 5#5 (ready 0xFF037293 [(6#5, 0x12345678#32)]) = some (0xC#32, 0x12345670#32) := by decide
/-- V101. -/
theorem test_slli : pcAndReg 5#5 (ready 0x00431293 [(6#5, 0x80FF7F01#32)]) = some (0xC#32, 0x0FF7F010#32) := by decide
/-- V102. -/
theorem test_slli_31 : pcAndReg 5#5 (ready 0x01F31293 [(6#5, 3#32)]) = some (0xC#32, 0x80000000#32) := by decide
/-- V104. -/
theorem test_srli : pcAndReg 5#5 (ready 0x00435293 [(6#5, 0x80FF7F01#32)]) = some (0xC#32, 0x080FF7F0#32) := by decide
/-- V106. -/
theorem test_srai : pcAndReg 5#5 (ready 0x40435293 [(6#5, 0x80FF7F01#32)]) = some (0xC#32, 0xF80FF7F0#32) := by decide
/-- V108. -/
theorem test_srai_positive : pcAndReg 5#5 (ready 0x40435293 [(6#5, 0x7FFFFFFF#32)]) = some (0xC#32, 0x07FFFFFF#32) := by decide
/-- V113. -/
theorem test_add_wraps : pcAndReg 5#5 (ready 0x007302B3 [(6#5, 0xFFFFFFFF#32), (7#5, 2#32)]) = some (0xC#32, 1#32) := by decide
/-- V116: a write to register 0. -/
theorem test_add_x0 : pcAndReg 0#5 (ready 0x00730033 [(6#5, 1#32), (7#5, 2#32)]) = some (0xC#32, 0#32) := by decide
/-- V117. -/
theorem test_sub : pcAndReg 5#5 (ready 0x407302B3 [(6#5, 3#32), (7#5, 5#32)]) = some (0xC#32, 0xFFFFFFFE#32) := by decide
/-- V122: 31 places. -/
theorem test_sll : pcAndReg 5#5 (ready 0x007312B3 [(6#5, 1#32), (7#5, 0xFFFFFFFF#32)]) = some (0xC#32, 0x80000000#32) := by
  decide
/-- V123: the amount 32 is 0. -/
theorem test_sll_by_32 :
    pcAndReg 5#5 (ready 0x007312B3 [(6#5, 0x80FF7F01#32), (7#5, 0x20#32), (5#5, 9#32)]) = some (0xC#32, 0x80FF7F01#32) := by
  decide
/-- V124. -/
theorem test_slt : pcAndReg 5#5 (ready 0x007322B3 [(6#5, 0x80000000#32), (7#5, 1#32)]) = some (0xC#32, 1#32) := by decide
/-- V125. -/
theorem test_slt_not : pcAndReg 5#5 (ready 0x007322B3 [(6#5, 1#32), (7#5, 0x80000000#32), (5#5, 9#32)]) = some (0xC#32, 0#32) := by
  decide
/-- V127. -/
theorem test_sltu_not : pcAndReg 5#5 (ready 0x007332B3 [(6#5, 0x80000000#32), (7#5, 1#32), (5#5, 9#32)]) = some (0xC#32, 0#32) := by
  decide
/-- V128. -/
theorem test_sltu : pcAndReg 5#5 (ready 0x007332B3 [(6#5, 1#32), (7#5, 0x80000000#32)]) = some (0xC#32, 1#32) := by decide
/-- V130. -/
theorem test_xor : pcAndReg 5#5 (ready 0x007342B3 [(6#5, 0xFF00FF00#32), (7#5, 0x0FF00FF0#32)]) = some (0xC#32, 0xF0F0F0F0#32) := by
  decide
/-- V132: the amount 63 is 31. -/
theorem test_srl : pcAndReg 5#5 (ready 0x007352B3 [(6#5, 0x80FF7F01#32), (7#5, 0x3F#32)]) = some (0xC#32, 1#32) := by decide
/-- V134. -/
theorem test_sra : pcAndReg 5#5 (ready 0x407352B3 [(6#5, 0x80FF7F01#32), (7#5, 0x3F#32)]) = some (0xC#32, 0xFFFFFFFF#32) := by
  decide
/-- V135. -/
theorem test_sra_positive :
    pcAndReg 5#5 (ready 0x407352B3 [(6#5, 0x7FFFFFFF#32), (7#5, 0x1F#32), (5#5, 9#32)]) = some (0xC#32, 0#32) := by decide
/-- V136. -/
theorem test_or : pcAndReg 5#5 (ready 0x007362B3 [(6#5, 0xFF00FF00#32), (7#5, 0x0FF00FF0#32)]) = some (0xC#32, 0xFFF0FFF0#32) := by
  decide
/-- V137. -/
theorem test_and : pcAndReg 5#5 (ready 0x007372B3 [(6#5, 0xFF00FF00#32), (7#5, 0x0FF00FF0#32)]) = some (0xC#32, 0x0F000F00#32) := by
  decide
/-- V141, the source's property S5: Finished, the exit call counted and the count presented. -/
theorem test_ecall_exit : after (fun t => (t.status, t.instret, t.countOut, t.pc)) (ready 0x00000073 [(17#5, 0x45584954#32)])
    = some (.finished, 1, some 1, 0xC#32) := by decide
/-- V143: the three bytes of the buffer go out, in address order. -/
theorem test_ecall_write :
    after (fun t => (t.out, t.status)) (poke 0x58 0x000A6948#32 (ready 0x00000073 [(17#5, 1#32), (10#5, 0x58#32), (11#5, 3#32)]))
      = some ([0x48#8, 0x69#8, 0x0A#8], .running) := by decide

/-! ### The step cycle and the loader -/

/-- V158 (the alignment check comes first), V157 and V160; a fetch error leaves `pc`. -/
theorem test_fetch_errors :
    failure (bare.setPc 0xFE#32) = some (.fetchMisaligned, 0xFE#32, 0)
      ∧ failure (bare.setPc 0x100#32) = some (.fetchBounds, 0x100#32, 0)
      ∧ failure (bare.setPc 0xFFFFFFFC#32) = some (.fetchBounds, 0xFFFFFFFC#32, 0) := by decide
/-- V159: the last word of memory executes. -/
theorem test_fetch_last_word :
    after (fun t => (t.pc, t.instret)) ((bare.setPc 0xFC#32).withFetchWord 32 0x00000013) = some (0x100#32, 1) := by decide
/-- V161: an unknown word leaves `pc` advanced and is not counted. -/
theorem test_decode_error : failure (ready 0x00000000 []) = some (.decode, 0xC#32, 0) := by decide
/-- The first instruction after reset runs from address 8 (R194). -/
theorem test_withFetchWord_runs : pcAndReg 11#5 (State.reset.withFetchWord 32 0x00A00593) = some (0xC#32, 10#32) := by decide
/-- The statuses outward: all errors are one status (R172). -/
theorem test_statusOf :
    statusOf (step (ready 0x00000013 [])) = some .goesOn
      ∧ statusOf (step (ready 0x00000073 [(17#5, 0x45584954#32)])) = some .finished
      ∧ statusOf (step (ready 0x00000000 [])) = some .error
      ∧ statusOf (step (bare.setStatus .finished)) = none := by decide
/-- What a loader answers, in a form that can be compared: MEM_SIZE, or nothing for a LoaderError. -/
def loadedMemSize (blob : List Byte) : Option Nat :=
  match load blob with
  | .next s => some s.memSize.toNat
  | .fault _ => none
  | .refused _ => none
/-- The loader vectors of R196 that are short. -/
theorem test_loader_sizes :
    loadedMemSize [] = none ∧ loadedMemSize [0#8, 0#8, 0#8] = none ∧ loadedMemSize [0#8, 0#8, 0#8, 0#8] = some 0
      ∧ loadedMemSize [0x10#8, 0#8, 0#8, 0#8] = some 16
      ∧ loadedMemSize [0#8, 0#8, 0#8, 0#8, 0#8, 0#8, 0#8, 0#8, 0#8, 0#8, 0#8, 1#8] = some 16777224
      ∧ loadedMemSize [0#8, 0#8, 0#8, 0#8, 0#8, 0#8, 0#8, 0#8, 1#8, 0#8, 0#8, 1#8] = some 16777224 := by decide
/-- S7: a request of 20,000,000 bytes is clamped to 16 MiB. -/
theorem test_loader_clamps : loadedMemSize [0x0F#8, 0x00#8, 0x2D#8, 0x31#8, 0x01#8] = some 16777217 := by decide

/-! ### Other parameters (R6) -/

/-- V7's word under AUIPC_BASE = next: by hand from R96, 0xC + 0x1000. -/
theorem test_stepWith_auipc_next :
    (match stepWith { params with auipcBase := .next } (ready 0x00001297 []) with
      | .next t => some (t.pc, t.reg 5#5)
      | .fault _ => none
      | .refused _ => none) = some (0xC#32, 0x100C#32) := by decide

/-- By hand from R52, R61 to R63: the words of instructions whose numbers `renumbered` has changed. -/
theorem test_decodeWith_renumbered :
    decodeWith renumbered 0b0000001_00111_00110_000_00101_0110111#32 = .ok (.add 5#5 6#5 7#5)
      ∧ decodeWith renumbered 0b0000000_00101_00010_000_00101_0100011#32 = .ok (.sw 5#5 2#5 5#12)
      ∧ decodeWith renumbered 0b0000100_00100_00110_101_00101_0010011#32 = .ok (.srli 5#5 6#5 4#5)
      ∧ decodeWith renumbered 0b0000000_00100_00110_001_00101_0010011#32 = .error .shiftLeftUpperBits := by decide

/-! ### Witnesses: what meets the hypotheses of each statement, at the ends of its ranges

The states below are those of the dispatch stage where a statement is about `exec`. -/

/-- Other numbers that tell the rows apart: every selector and top-7-bit value that `renumbered` changes included. -/
theorem test_witness_DecodeOfEncodeIsTheInstruction :
    DistinctNumbers params ∧ (Instr.beq 31#5 0#5 0x1000#13).wellFormed = true
      ∧ (Instr.jal 31#5 0x0FFFFE#21).wellFormed = true ∧ (Instr.srai 1#5 2#5 31#5).wellFormed = true
      ∧ DistinctNumbers renumbered := by
  unfold DistinctNumbers; decide

theorem test_witness_EncodeOfDecodeIsTheWord :
    decodeWith params 0x800000EF#32 = .ok (.jal 1#5 0x100000#21)
      ∧ decodeWith { params with ecallWord := 0x00000033#32 } 0x00000033#32 = .ok .ecall := by decide

theorem test_witness_DecodingFollowsTheOpcodeTable :
    decode 0x40435293#32 = .ok (.srai 5#5 6#5 4#5)
      ∧ 0x40435293#32 &&& rowMask (.srai 0#5 0#5 0#5) = rowMatch (.srai 0#5 0#5 0#5)
      ∧ 0x00000073#32 &&& rowMask .ecall = rowMatch .ecall := by decide

/-- Both sides of the equivalence, the nine cases in their order and a word that is none of them. -/
theorem test_witness_UnknownWordsAreTheNineCases :
    UnknownWord 0x0000000F#32 ∧ UnknownWord 0x00100073#32 ∧ UnknownWord 0x004010E7#32 ∧ UnknownWord 0x0062A463#32
      ∧ UnknownWord 0x00017303#32 ∧ UnknownWord 0x00513023#32 ∧ UnknownWord 0x02031293#32 ∧ UnknownWord 0x20435293#32
      ∧ UnknownWord 0x027302B3#32 ∧ ¬ UnknownWord 0x00000073#32 := by
  unfold UnknownWord
  simp

/-- The least and the greatest immediate of each format, from the spec's table of immediate vectors. -/
theorem test_witness_PlainFieldsAreTheWordsBits :
    decode 0x7FF30293#32 = .ok (.addi 5#5 6#5 0x7FF#12) ∧ decode 0x80030293#32 = .ok (.addi 5#5 6#5 0x800#12)
      ∧ decode 0x800002B7#32 = .ok (.lui 5#5 0x80000#20) ∧ decode 0x01F31293#32 = .ok (.slli 5#5 6#5 31#5)
      ∧ decode 0x00031293#32 = .ok (.slli 5#5 6#5 0#5) := by decide

theorem test_witness_SplitImmediatesAreReassembled :
    decode 0x7E53AFA3#32 = .ok (.sw 5#5 7#5 0x7FF#12) ∧ decode 0x8053A023#32 = .ok (.sw 5#5 7#5 0x800#12)
      ∧ decode 0x7E208FE3#32 = .ok (.beq 1#5 2#5 4094#13) ∧ decode 0x80208063#32 = .ok (.beq 1#5 2#5 0x1000#13)
      ∧ decode 0x7FFFF0EF#32 = .ok (.jal 1#5 1048574#21) ∧ decode 0x800000EF#32 = .ok (.jal 1#5 0x100000#21) := by decide

/-- An AUIPC at the last word of the address space, its `pc_next` wrapped to 0, and one at 8. -/
theorem test_witness_AuipcAddsItsOwnAddress :
    (bare.setPc 0#32).pc = 0xFFFFFFFC#32 + 4#32 ∧ (bare.setPc 0xC#32).pc = 8#32 + 4#32 := by decide

/-- Each of the six conditions holds and fails somewhere. -/
theorem test_witness_BranchesDecideAndJump :
    let s := withRegs [(5#5, 0x80000000#32), (6#5, 0x7FFFFFFF#32), (7#5, 0x7FFFFFFF#32)] bare
    s.reg 6#5 = s.reg 7#5 ∧ s.reg 5#5 ≠ s.reg 6#5 ∧ (s.reg 5#5).toInt < (s.reg 6#5).toInt
      ∧ ¬ (s.reg 6#5).toInt < (s.reg 7#5).toInt ∧ (s.reg 6#5).toNat < (s.reg 5#5).toNat
      ∧ ¬ (s.reg 5#5).toNat < (s.reg 6#5).toNat := by decide

/-- The last byte, half and word of memory, for the loads and for the stores. -/
theorem test_witness_LoadsReadAndExtend :
    (effAddr bare 0#5 0xFF#12).toNat + 1 = bare.memSize.toNat ∧ (effAddr bare 0#5 0xFE#12).toNat + 2 = bare.memSize.toNat
      ∧ (effAddr bare 0#5 0xFC#12).toNat + 4 = bare.memSize.toNat := by decide

/-- One byte further, and the top of the address space, where nothing wraps. -/
theorem test_witness_AccessOutOfBoundsIsFatal :
    loadRange bare (.lw 6#5 0#5 0xFD#12) = some (0xFD, 4) ∧ bare.memSize.toNat < 0xFD + 4
      ∧ storeRange bare (.sb 6#5 0#5 0xFFF#12) = some (0xFFFFFFFF, 1) ∧ bare.memSize.toNat < 0xFFFFFFFF + 1 := by decide

theorem test_witness_StoresWriteTheirBytes :
    Memory.wf bare.mem = true ∧ (effAddr bare 0#5 0xFF#12).toNat + 1 ≤ bare.memSize.toNat
      ∧ (effAddr bare 0#5 0xFE#12).toNat + 2 ≤ bare.memSize.toNat
      ∧ (effAddr bare 0#5 0xFC#12).toNat + 4 ≤ bare.memSize.toNat
      ∧ Memory.wf (poke 0xFC 0x80FF0001#32 bare).mem = true := by decide

theorem test_witness_LoadAfterStoreReturnsTheStoredBits :
    Memory.wf bare.mem = true ∧ (∃ t, exec (.sw 5#5 0#5 0xFC#12) bare = .next t)
      ∧ (∃ t, exec (.sh 5#5 0#5 0xFE#12) bare = .next t) ∧ (∃ t, exec (.sb 5#5 0#5 0xFF#12) bare = .next t) :=
  ⟨rfl, ⟨_, rfl⟩, ⟨_, rfl⟩, ⟨_, rfl⟩⟩

theorem test_witness_NarrowReadsSeeAWideStore :
    Memory.wf bare.mem = true ∧ (∃ t, memWrite bare 0xFC#32 4 0x80FF7F01#32 = .ok t) ∧ (3 : Nat) < 4 ∧ (2 : Nat) < 3 :=
  ⟨rfl, ⟨_, rfl⟩, by decide, by decide⟩

theorem test_witness_FetchSeesAStoredWord :
    Memory.wf bare.mem = true ∧ (∃ t, exec (.sw 5#5 0#5 0xFC#12) bare = .next t)
      ∧ (effAddr bare 0#5 0xFC#12).toNat % 4 = 0 :=
  ⟨rfl, ⟨_, rfl⟩, by decide⟩

theorem test_witness_EcallExits : (withRegs [(17#5, 0x45584954#32)] bare).reg 17#5 = 0x45584954#32 := by decide

/-- A buffer that ends at MEM_SIZE, and the empty one at MEM_SIZE. -/
theorem test_witness_EcallWritesTheBuffer :
    (let s := withRegs [(17#5, 1#32), (10#5, 0xFD#32), (11#5, 3#32)] (bare.emit [0x21#8]);
      s.reg 17#5 = 1#32 ∧ (s.reg 10#5).toNat + (s.reg 11#5).toNat = s.memSize.toNat ∧ 2 < (s.reg 11#5).toNat
        ∧ 0 < s.out.length)
    ∧ (let s := withRegs [(17#5, 1#32), (10#5, 0x100#32)] bare;
      s.reg 17#5 = 1#32 ∧ (s.reg 10#5).toNat + (s.reg 11#5).toNat ≤ s.memSize.toNat) := by decide

/-- V147's empty buffer past MEM_SIZE, and V148's two largest numbers, whose sum does not wrap. -/
theorem test_witness_EcallWriteOutOfBoundsIsFatal :
    (let s := withRegs [(17#5, 1#32), (10#5, 0x101#32)] bare;
      s.reg 17#5 = 1#32 ∧ s.memSize.toNat < (s.reg 10#5).toNat + (s.reg 11#5).toNat)
    ∧ (let s := withRegs [(17#5, 1#32), (10#5, 0xFFFFFFFF#32), (11#5, 0xFFFFFFFF#32)] bare;
      s.reg 17#5 = 1#32 ∧ s.memSize.toNat < (s.reg 10#5).toNat + (s.reg 11#5).toNat) := by decide

/-- The three numbers that are errors, another one next to 1, and both calls that complete. -/
theorem test_witness_UnknownSystemCallIsFatal :
    (bare.reg params.syscallNumReg = 0#32 ∧ (withRegs [(17#5, 64#32)] bare).reg params.syscallNumReg = 64#32
        ∧ (withRegs [(17#5, 93#32)] bare).reg params.syscallNumReg = 93#32 ∧ params.exitSentinel ∉ [0#32, 64#32, 93#32])
      ∧ (withRegs [(17#5, 2#32)] bare).reg params.syscallNumReg ≠ params.exitSentinel
      ∧ (withRegs [(17#5, 2#32)] bare).reg params.syscallNumReg ≠ 1#32
      ∧ (∃ t, ecallWith params (withRegs [(17#5, 1#32)] bare) = .next t)
      ∧ (∃ t, ecallWith { params with syscallNumReg := 5#5, exitSentinel := 0#32 } bare = .next t) :=
  ⟨by decide, by decide, by decide, ⟨_, rfl⟩, ⟨_, rfl⟩⟩

/-- P7's blob. -/
theorem test_witness_EcallStraightAfterResetIsFatal :
    ∃ s, load [0#8, 0#8, 0#8, 0#8, 0#8, 0#8, 0#8, 0#8, 0x73#8, 0#8, 0#8, 0#8, 0#8, 0#8, 0#8, 0#8] = .next s
      ∧ fetch s = .ok 0x00000073#32 :=
  ⟨_, rfl, rfl⟩

/-- Both answers, and a call that writes something out. -/
theorem test_witness_EcallLeavesTheRestAlone :
    (∃ t, ecallWith params (withRegs [(17#5, 1#32), (11#5, 1#32)] bare) = .next t ∧ t.out ≠ bare.out)
      ∧ (∃ r t, ecallWith params bare = .fault (.error r t)) :=
  ⟨⟨_, rfl, by decide⟩, _, _, rfl⟩

/-- An instruction that completes, one that raises, a word that does not decode and the two failing fetches. -/
theorem test_witness_StepRunsTheDecodedInstruction :
    bare.status = .running ∧ fetch (ready 0x00000013 []) = .ok 0x00000013#32
      ∧ decode 0x00000013#32 = .ok (.addi 0#5 0#5 0#12)
      ∧ (∃ u, exec (.addi 0#5 0#5 0#12) { bare with pc := bare.pc + 4#32 } = .next u)
      ∧ decode 0x00012003#32 = .ok (.lw 0#5 2#5 0#12)
      ∧ (∃ r a, exec (.lw 0#5 2#5 0#12) { withRegs [(2#5, 0x100#32)] bare with pc := 0xC#32 } = .fault (.error r a))
      ∧ fetch (ready 0x0FF0000F []) = .ok 0x0FF0000F#32 ∧ decode 0x0FF0000F#32 = .error .unknownOpcode
      ∧ fetch (bare.setPc 0xA#32) = .error .fetchMisaligned ∧ fetch (bare.setPc 0x100#32) = .error .fetchBounds :=
  ⟨rfl, by decide, by decide, ⟨_, rfl⟩, by decide, ⟨_, _, rfl⟩, by decide, by decide, by decide, by decide⟩

/-- The last word of memory; the three misalignments, one of them out of bounds; the word at MEM_SIZE. -/
theorem test_witness_FetchReadsAnAlignedWord :
    ((bare.setPc 0xFC#32).pc.toNat % 4 = 0 ∧ (bare.setPc 0xFC#32).pc.toNat + 4 = bare.memSize.toNat)
      ∧ (bare.setPc 0xFE#32).pc.toNat % 4 ≠ 0 ∧ (bare.setPc 9#32).pc.toNat % 4 ≠ 0 ∧ (bare.setPc 0x103#32).pc.toNat % 4 ≠ 0
      ∧ ((bare.setPc 0x100#32).pc.toNat % 4 = 0 ∧ bare.memSize.toNat < (bare.setPc 0x100#32).pc.toNat + 4) := by decide

/-- Each of the six reasons is raised by some step. -/
theorem test_witness_EveryErrorHasItsCause :
    failure (bare.setPc 9#32) = some (.fetchMisaligned, 9#32, 0)
      ∧ failure (bare.setPc 0x100#32) = some (.fetchBounds, 0x100#32, 0)
      ∧ failure (ready 0x0000000F []) = some (.decode, 0xC#32, 0)
      ∧ failure (ready 0x00012023 [(2#5, 0x100#32)]) = some (.dataBounds, 0xC#32, 0)
      ∧ failure (ready 0x00000073 [(17#5, 0x54495845#32)]) = some (.syscall, 0xC#32, 0)
      ∧ failure (ready 0x00000073 [(17#5, 1#32), (10#5, 0x101#32)]) = some (.syscallBounds, 0xC#32, 0) := by decide

/-- A step that fails its fetch and one that fails later. -/
theorem test_witness_FailingStepChangesAtMostThePc :
    (∃ a, step (bare.setPc 9#32) = .fault (.error .fetchMisaligned a))
      ∧ (∃ a, step (ready 0x0000000F []) = .fault (.error .decode a)) :=
  ⟨⟨_, rfl⟩, _, rfl⟩

/-- A blob that loads, a step that raises, and a state of each ended kind. -/
theorem test_witness_EndedRunsTakeNoStep :
    (∃ s, load [0#8, 0#8, 0#8, 0#8] = .next s) ∧ (∃ a, step bare = .fault (.error .decode a))
      ∧ (bare.setStatus .finished).status ≠ .running ∧ (bare.setStatus (.error .syscall)).status ≠ .running :=
  ⟨⟨_, rfl⟩, ⟨_, rfl⟩, by decide, by decide⟩

/-- An instruction that is not ECALL, both calls that complete, the exit step, and the end of memory. -/
theorem test_witness_OnlyTheExitCallFinishes :
    (∃ t, exec (.addi 5#5 0#5 1#12) bare = .next t) ∧ Instr.addi 5#5 0#5 1#12 ≠ .ecall
      ∧ (∃ t, exec .ecall (withRegs [(17#5, 0x45584954#32)] bare) = .next t)
      ∧ (∃ t, exec .ecall (withRegs [(17#5, 1#32)] bare) = .next t)
      ∧ (∃ t, step (ready 0x00000073 [(17#5, 0x45584954#32)]) = .next t ∧ t.status = .finished)
      ∧ ((bare.setPc 0x100#32).status = .running ∧ bare.memSize.toNat < (bare.setPc 0x100#32).pc.toNat + 4) :=
  ⟨⟨_, rfl⟩, by decide, ⟨_, rfl⟩, ⟨_, rfl⟩, ⟨_, rfl, rfl⟩, by decide⟩

/-- A load to register 0 in bounds and out of bounds. -/
theorem test_witness_RegisterZeroIsAConstantSink :
    (∃ t, exec (.addi 0#5 0#5 5#12) bare = .next t)
      ∧ destOf (.lw 0#5 0#5 0xFC#12) = some 0#5 ∧ loadRange bare (.lw 0#5 0#5 0xFC#12) = some (0xFC, 4)
      ∧ 0xFC + 4 ≤ bare.memSize.toNat ∧ loadRange bare (.lw 0#5 0#5 0xFD#12) = some (0xFD, 4)
      ∧ ¬ 0xFD + 4 ≤ bare.memSize.toNat :=
  ⟨⟨_, rfl⟩, rfl, by decide, by decide, by decide, by decide⟩

theorem test_witness_OnlyTheDestinationRegisterChanges :
    ∃ t, step (ready 0x00128293 []) = .next t ∧ t.reg 5#5 ≠ (ready 0x00128293 []).reg 5#5 :=
  ⟨_, rfl, by decide⟩

theorem test_witness_OnlyStoresWriteMemory :
    let s := ready 0xFE512E23 [(2#5, 0x100#32), (5#5, 0xDEADBEEF#32)]
    Memory.wf s.mem = true ∧ ∃ t, step s = .next t ∧ t.byte 0xFF ≠ s.byte 0xFF :=
  ⟨by decide, _, rfl, by decide⟩

theorem test_witness_OutputOnlyGrowsBySystemCallOne :
    (∃ s, load [0#8, 0#8, 0#8, 0#8] = .next s)
      ∧ (∃ t, step (ready 0x00000073 [(17#5, 1#32), (10#5, 8#32), (11#5, 1#32)]) = .next t ∧ t.out = [0x73#8])
      ∧ (∃ t, step (ready 0x00000013 []) = .next t ∧ t.out = []) :=
  ⟨⟨_, rfl⟩, ⟨_, rfl, by decide⟩, _, rfl, rfl⟩

/-- No step, one step, and one step that finishes. -/
theorem test_witness_CounterCountsTheStepsTaken :
    (∃ t, core.run 0 bare = .next t) ∧ (∃ t, core.run 1 (ready 0x00000013 []) = .next t)
      ∧ (∃ t, core.run 1 (ready 0x00000073 [(17#5, 0x45584954#32)]) = .next t ∧ t.status = .finished) :=
  ⟨⟨_, rfl⟩, ⟨_, rfl⟩, _, rfl, rfl⟩

theorem test_witness_SingleExitCallCountsOne :
    let s := ready 0x00000073 [(17#5, 0x45584954#32)]
    s.status = .running ∧ s.instret = 0 ∧ s.reg 17#5 = 0x45584954#32 ∧ fetch s = .ok 0x00000073#32 := by decide

/-- A run that has ended after one step, and one that has not (P10's loop). -/
theorem test_witness_FuelIsNoEnd :
    (runFor 1 (ready 0x00000073 [(17#5, 0x45584954#32)])).status ≠ .running
      ∧ (runFor 1 (ready 0xFFDFF06F [])).status = .running := by decide

/-- A state that meets the invariant and steps: one in which a store is fetched. -/
theorem test_witness_StepKeepsTheInvariant :
    let s := ready 0xFE512E23 [(2#5, 0x100#32), (5#5, 0xDEADBEEF#32)]
    s.Inv ∧ ∃ t, step s = .next t :=
  ⟨by decide, _, rfl⟩

/-- A loaded program whose run ends in an error. -/
theorem test_witness_RunsOfLoadedProgramsKeepTheInvariant :
    ∃ s, load [0x10#8, 0#8, 0#8, 0#8] = .next s ∧ (runFor 1 s).status ≠ .finished :=
  ⟨_, rfl, by decide⟩

/-- The empty image without a BSS region, and an image of one byte with a request above the ceiling. -/
theorem test_witness_LoaderBuildsTheMemory :
    ([] : List Byte).length + min ((0#8).toNat + 256 * (0#8).toNat + 65536 * (0#8).toNat + 16777216 * (0#8).toNat)
        (16 * 1024 * 1024) < 2 ^ 32
      ∧ [0x0F#8].length + min ((0xFF#8).toNat + 256 * (0xFF#8).toNat + 65536 * (0xFF#8).toNat + 16777216 * (0xFF#8).toNat)
        (16 * 1024 * 1024) < 2 ^ 32 ∧ 0 < [0x0F#8].length := by decide

/-- Three bytes; an image of 2^32 bytes; four bytes. -/
theorem test_witness_LoaderRefusesOnlyTheseBlobs :
    [0#8, 0#8, 0#8].length < 4
      ∧ 2 ^ 32 ≤ loadedSize (List.replicate (2 ^ 32 + 4) 0#8)
      ∧ 4 ≤ [0x10#8, 0#8, 0#8, 0#8].length ∧ loadedSize [0x10#8, 0#8, 0#8, 0#8] < 2 ^ 32 := by
  refine ⟨by decide, ?_, by decide, by decide⟩
  rw [loadedSize, imageOf, List.length_take, List.length_replicate, trailerLen]
  omega

theorem test_witness_LoadedMachineBeginsAsReset : ∃ s, load [0x10#8, 0#8, 0#8, 0#8] = .next s := ⟨_, rfl⟩

/-- A word of each outcome under other parameters: one that decodes and completes, one that decodes and raises, one that
does not decode. -/
theorem test_witness_StepAtEveryParameterChoice :
    fetch (ready 0x00000297 []) = .ok 0x00000297#32
      ∧ decodeWith renumbered 0x00000297#32 = .ok (.auipc 5#5 0#20)
      ∧ (∃ u, execWith renumbered (.auipc 5#5 0#20) { bare with pc := bare.pc + 4#32 } = .next u)
      ∧ (∃ r a, execWith renumbered .ecall { bare with pc := bare.pc + 4#32 } = .fault (.error r a))
      ∧ decodeWith renumbered 0x00008067#32 = .error .jalrSelector
      ∧ fetch (bare.setPc 9#32) = .error .fetchMisaligned :=
  ⟨by decide, by decide, ⟨_, rfl⟩, ⟨_, _, rfl⟩, by decide, by decide⟩

/-- The two values of AUIPC_BASE, and the four cases of the environment call under other parameters: exit, a write up to
the last byte of memory, one past it, and another number. -/
theorem test_witness_ParametersReachAuipcAndEcallAlone :
    (bare.pc = 4#32 + 4#32 ∧ params.auipcBase = .fetch ∧ renumbered.auipcBase = .next)
      ∧ (withRegs [(5#5, 2#32)] bare).reg renumbered.syscallNumReg = renumbered.exitSentinel
      ∧ (let s := withRegs [(5#5, 1#32), (6#5, 0xFF#32), (7#5, 1#32)] bare
        s.reg renumbered.syscallNumReg ≠ renumbered.exitSentinel ∧ s.reg renumbered.syscallNumReg = 1#32
          ∧ (s.reg renumbered.writePtrReg).toNat + (s.reg renumbered.writeLenReg).toNat = s.memSize.toNat)
      ∧ (let s := withRegs [(5#5, 1#32), (6#5, 0x101#32)] bare
        s.reg renumbered.syscallNumReg = 1#32
          ∧ s.memSize.toNat < (s.reg renumbered.writePtrReg).toNat + (s.reg renumbered.writeLenReg).toNat)
      ∧ (bare.reg renumbered.syscallNumReg ≠ renumbered.exitSentinel ∧ bare.reg renumbered.syscallNumReg ≠ 1#32)
      ∧ (Instr.addi 5#5 0#5 1#12 ≠ .ecall ∧ ∀ rd imm20, Instr.addi 5#5 0#5 1#12 ≠ .auipc rd imm20) :=
  ⟨by decide, by decide, by decide, by decide, by decide, by decide, fun _ _ h => nomatch h⟩

/-- A state that meets the invariant and steps under other parameters. -/
theorem test_witness_StepKeepsTheInvariantAtEveryParameterChoice :
    let s := ready 0x00000297 []
    s.Inv ∧ ∃ t, stepWith renumbered s = .next t :=
  ⟨by decide, _, rfl⟩

theorem test_witness_ResetRegistersHoldTheParameter :
    ∃ s, loadWith renumbered [0x10#8, 0#8, 0#8, 0#8] = .next s ∧ s.reg 31#5 = 9#32 := ⟨_, rfl, by decide⟩

end Sys2Proof.Tests
end

section
/-! Proofs of the statements on the state (spec/10_state.md): the run status (R21), register 0 (R11, R12) and the output
stream (R20). Three general facts come first: what an instruction that completes has done, by the instruction; what a
load is; and that a change to fields no operation reads passes through an instruction and a step. -/

open Sys2Proof Sys2Proof.Machine

namespace Sys2Proof.Slice0

/-! ### What an instruction that completes has done, by the instruction -/

/-- What an instruction can have done to the state it was given. Beside `Effect` it names the instruction, and it asks
for no well-formed one. -/
inductive InstrEffect (s : State) (i : Instr) : State → Prop where
  | wroteReg (rd : Reg) (v : Word) (dest : destOf i = some rd) : InstrEffect s i (s.setReg rd v)
  | jumped (rd : Reg) (target : Word) (dest : destOf i = some rd) :
      InstrEffect s i ((s.setReg rd s.pc).setPc target)
  | branched (target : Word) : InstrEffect s i (s.setPc target)
  | stored (a n : Nat) (v : Word) (range : storeRange s i = some (a, n)) (inside : a + n ≤ s.memSize.toNat) :
      InstrEffect s i (s.setMem (Memory.writeLE s.mem a n v))
  | wroteOut (call : i = .ecall) (number : s.reg params.syscallNumReg = 1#32) :
      InstrEffect s i (s.emit ((List.range (s.reg params.writeLenReg).toNat).map
        fun k => s.byte ((s.reg params.writePtrReg).toNat + k)))
  | exited (call : i = .ecall) (number : s.reg params.syscallNumReg = params.exitSentinel) :
      InstrEffect s i (s.setStatus .finished)

/-- A load that completes has written its destination. -/
theorem InstrEffect.of_loadOp {i : Instr} {n : Nat} {ext : BitVec (8 * n) → Word} {rd rs1 : Reg} {imm : BitVec 12}
    {s t : State} (dest : destOf i = some rd) (h : loadOp n ext rd rs1 imm s = .next t) : InstrEffect s i t := by
  obtain ⟨v, rfl⟩ := loadOp_next h
  exact .wroteReg rd v dest

/-- A store that completes has stored inside its range. -/
theorem InstrEffect.of_storeOp {i : Instr} {n : Nat} {rs2 rs1 : Reg} {imm : BitVec 12} {s t : State}
    (range : storeRange s i = some ((effAddr s rs1 imm).toNat, n)) (h : storeOp n rs2 rs1 imm s = .next t) :
    InstrEffect s i t := by
  obtain ⟨inside, rfl⟩ := storeOp_next h
  exact .stored _ n _ range inside

/-- A branch has set the program counter, to itself where it is not taken. -/
theorem InstrEffect.of_branchIf {i : Instr} {taken : Bool} {imm : BitVec 13} {s t : State}
    (h : branchIf taken imm s = .next t) : InstrEffect s i t := by
  cases taken <;> cases h
  · exact .branched s.pc
  · exact .branched _

/-- An environment call that completes has exited or written its buffer out (R162, R163). -/
theorem InstrEffect.of_execEcall {s t : State} (h : execEcall s = .next t) : InstrEffect s .ecall t := by
  rcases ecallWith_cases params s with ⟨number, e⟩ | ⟨_, number, bs, hread, e⟩ | ⟨_, _, _, e⟩ | ⟨_, _, e⟩ <;>
    cases e.symm.trans h
  · exact .exited rfl number
  · by_cases inside : (s.reg params.writePtrReg).toNat + (s.reg params.writeLenReg).toNat ≤ s.memSize.toNat
    · cases (readBuffer_ok inside).symm.trans hread
      exact .wroteOut rfl number
    · cases (readBuffer_error inside).symm.trans hread

/-- What an instruction that answers a next state has done. -/
theorem exec_instrEffect {i : Instr} {s t : State} (h : exec i s = .next t) : InstrEffect s i t := by
  cases i
  case jal | jalr => cases h; exact .jumped _ _ rfl
  case beq | bne | blt | bge | bltu | bgeu => exact .of_branchIf h
  case lb | lh | lw | lbu | lhu => exact .of_loadOp rfl h
  case sb | sh | sw => exact .of_storeOp rfl h
  case ecall => exact .of_execEcall h
  all_goals cases h; exact .wroteReg _ _ rfl

/-! ### Register 0 -/

/-- An instruction with a load range is `loadOp` at that range and its destination (R115). -/
theorem exec_eq_loadOp {i : Instr} {s : State} {rd : Reg} {a n : Nat} (dest : destOf i = some rd)
    (range : loadRange s i = some (a, n)) :
    ∃ ext rs1 imm, a = (effAddr s rs1 imm).toNat ∧ exec i s = loadOp n ext rd rs1 imm s := by
  cases i
  case lb | lh | lw | lbu | lhu => cases dest; cases range; exact ⟨_, _, _, rfl, rfl⟩
  all_goals cases range

/-- A load to register 0 is the bounds check alone (R12, R32). -/
theorem loadOp_zero (n : Nat) (ext : BitVec (8 * n) → Word) (rs1 : Reg) (imm : BitVec 12) (s : State) :
    loadOp n ext 0#5 rs1 imm s = if (effAddr s rs1 imm).toNat + n ≤ s.memSize.toNat then .next s
      else raise .dataBounds s := by
  unfold loadOp
  split_ifs with inside
  · rw [memRead_ok inside]; rfl
  · rw [memRead_error inside]

/-- A jump with register 0 is the jump alone (R12). -/
theorem linkAndJump_zero (target : Word) (s : State) : linkAndJump 0#5 target s = .next (s.setPc target) := by
  rw [linkAndJump, State.setReg_zero]

/-- No instruction writes slot 0 of the register file (R11, R12). -/
theorem InstrEffect.slot_zero {i : Instr} {s t : State} (h : InstrEffect s i t) : t.regs[0] = s.regs[0] := by
  cases h with
  | wroteReg rd v => exact s.slot_zero_setReg rd v
  | jumped rd => exact s.slot_zero_setReg rd s.pc
  | branched | stored | wroteOut | exited => rfl

/-- Settles O37: a next state has its registers from one register write at most, which spares slot 0; a load and a jump
are shared operations, which at register 0 are their other half. -/
theorem registerZeroIsAConstantSink : Obligations.RegisterZeroIsAConstantSink := by
  refine ⟨fun s v => ⟨s.reg_zero, s.setReg_zero v⟩, fun i s t h => ⟨t.reg_zero, (exec_instrEffect h).slot_zero⟩, ?_,
    fun s imm => linkAndJump_zero _ s, fun s rs1 imm => linkAndJump_zero _ s⟩
  intro s i a n dest range
  obtain ⟨ext, rs1, imm, rfl, e⟩ := exec_eq_loadOp dest range
  exact e.trans (loadOp_zero n ext rs1 imm s)

/-! ### The run status -/

/-- A machine the loader constructs is the boot state of its memory (R193). -/
theorem load_next {blob : List Byte} {s : State} (h : load blob = .next s) :
    s = State.boot params (Memory.ofBytes 0 (imageOf blob)) (BitVec.ofNat 32 (loadedSize blob)) := by
  rcases loadWith_cases params blob with ⟨_, e⟩ | ⟨_, _, e⟩ <;> cases e.symm.trans h
  rfl

/-- A step that raises leaves the run status at its error (R170). -/
theorem step_error_status {s a : State} {r : ErrorReason} (h : step s = .fault (.error r a)) :
    a.status = .error r := by
  obtain ⟨_, ⟨_, rfl⟩ | ⟨_, _, rfl, _⟩⟩ := step_error h <;> rfl

/-- Settles O35: an error is a status that is not Running, and such a state takes no step. -/
theorem endedRunsTakeNoStep : Obligations.EndedRunsTakeNoStep := by
  refine ⟨rfl, fun blob s h => ?_, fun s r a h => ?_, fun s h => ⟨step_ended h, fun fuel => runFor_ended fuel h⟩⟩
  · rw [load_next h]; rfl
  · have ha := step_error_status h
    exact ⟨ha, step_ended (by simp [ha])⟩

/-! ### A change that no instruction reads -/

/-- A running state whose fetch fails raises on itself (R81). -/
theorem step_of_fetch_error {s : State} {r : ErrorReason} (hs : s.status = .running) (hf : fetch s = .error r) :
    step s = raise r s := cycleWith_of_fetch_error hs hf

/-- A running state whose word is unknown raises after the advance (R64, R82). -/
theorem step_of_reject {s : State} {w : Word} {x : Reject} (hs : s.status = .running) (hf : fetch s = .ok w)
    (hd : decode w = .error x) : step s = raise .decode s.advance := cycleWith_of_reject hs hf hd

/-- `f` changes only what no operation reads: every field an operation reads is as before, and `f` commutes with each
write an instruction makes. -/
structure Unread (f : State → State) : Prop where
  pc (s : State) : (f s).pc = s.pc
  regs (s : State) : (f s).regs = s.regs
  mem (s : State) : (f s).mem = s.mem
  memSize (s : State) : (f s).memSize = s.memSize
  status (s : State) : (f s).status = s.status
  setReg (s : State) (r : Reg) (v : Word) : (f s).setReg r v = f (s.setReg r v)
  setPc (s : State) (t : Word) : (f s).setPc t = f (s.setPc t)
  setMem (s : State) (m : Memory) : (f s).setMem m = f (s.setMem m)
  setStatus (s : State) (st : RunStatus) : (f s).setStatus st = f (s.setStatus st)
  emit (s : State) (bs : List Byte) : (f s).emit bs = f (s.emit bs)

/-! What an operation reads is as before, and what it answers has passed the change on. -/

namespace Unread
variable {f : State → State} (hf : Unread f) (s : State)
include hf

theorem reg (r : Reg) : (f s).reg r = s.reg r := by rw [State.reg, hf.regs, State.reg]

theorem effAddr (rs1 : Reg) (imm : BitVec 12) : Machine.effAddr (f s) rs1 imm = Machine.effAddr s rs1 imm := by
  rw [Machine.effAddr, hf.reg, Machine.effAddr]

theorem inBounds (a n : Nat) : (f s).inBounds a n = s.inBounds a n := by
  rw [State.inBounds, hf.memSize, State.inBounds]

theorem fetch : Machine.fetch (f s) = Machine.fetch s := by
  simp only [Machine.fetch, hf.pc, hf.mem, hf.inBounds]

theorem advance : (f s).advance = f s.advance := by rw [State.advance, hf.pc, hf.setPc, State.advance]

theorem raise (r : ErrorReason) : Machine.raise r (f s) = mapResult f (Machine.raise r s) := by
  rw [Machine.raise, hf.setStatus]; rfl

theorem aluOp (g : Word → Word → Word) (rd rs1 rs2 : Reg) :
    Machine.aluOp g rd rs1 rs2 (f s) = mapResult f (Machine.aluOp g rd rs1 rs2 s) := by
  rw [Machine.aluOp, hf.setReg, hf.reg, hf.reg]; rfl

theorem branchIf (taken : Bool) (imm : BitVec 13) :
    Machine.branchIf taken imm (f s) = mapResult f (Machine.branchIf taken imm s) := by
  cases taken
  · rfl
  · simp only [Machine.branchIf, relTarget, hf.pc, hf.setPc, mapResult, if_true]

theorem linkAndJump (rd : Reg) (target : Word) :
    Machine.linkAndJump rd target (f s) = mapResult f (Machine.linkAndJump rd target s) := by
  rw [Machine.linkAndJump, hf.pc, hf.setReg, hf.setPc]; rfl

theorem loadOp (n : Nat) (ext : BitVec (8 * n) → Word) (rd rs1 : Reg) (imm : BitVec 12) :
    Machine.loadOp n ext rd rs1 imm (f s) = mapResult f (Machine.loadOp n ext rd rs1 imm s) := by
  simp only [Machine.loadOp, memRead, hf.effAddr, hf.inBounds, hf.mem]
  cases s.inBounds (Machine.effAddr s rs1 imm).toNat n
  · exact hf.raise s .dataBounds
  · exact congrArg _ (hf.setReg s rd _)

theorem storeOp (n : Nat) (rs2 rs1 : Reg) (imm : BitVec 12) :
    Machine.storeOp n rs2 rs1 imm (f s) = mapResult f (Machine.storeOp n rs2 rs1 imm s) := by
  simp only [Machine.storeOp, memWrite, hf.effAddr, hf.inBounds, hf.reg, hf.mem]
  cases s.inBounds (Machine.effAddr s rs1 imm).toNat n
  · exact hf.raise s .dataBounds
  · exact congrArg _ (hf.setMem s _)

theorem writeCall (ptr len : Word) : Machine.writeCall ptr len (f s) = mapResult f (Machine.writeCall ptr len s) := by
  simp only [Machine.writeCall, readBuffer, hf.inBounds, hf.mem]
  cases s.inBounds ptr.toNat len.toNat
  · exact hf.raise s .syscallBounds
  · exact congrArg _ (hf.emit s _)

theorem ecallWith (c : Config) : Machine.ecallWith c (f s) = mapResult f (Machine.ecallWith c s) := by
  simp only [Machine.ecallWith, hf.reg]
  split_ifs
  · exact congrArg _ (hf.setStatus s .finished)
  · exact hf.writeCall s _ _
  · exact hf.raise s .syscall

/-- Every instruction does the same after such a change. -/
theorem exec (i : Instr) : Machine.exec i (f s) = mapResult f (Machine.exec i s) := by
  cases i
  case lui | auipc =>
    simp only [Machine.exec, execLui, execAuipc, auipcWith, auipcBaseAddr, params, pcFetch, hf.pc, hf.setReg, mapResult]
  case jal | jalr =>
    simp only [Machine.exec, execJal, execJalr, relTarget, indirectTarget, hf.pc, hf.reg, hf.linkAndJump]
  case beq | bne | blt | bge | bltu | bgeu =>
    simp only [Machine.exec, execBeq, execBne, execBlt, execBge, execBltu, execBgeu, hf.reg, hf.branchIf]
  case lb | lh | lw | lbu | lhu => exact hf.loadOp s _ _ _ _ _
  case sb | sh | sw => exact hf.storeOp s _ _ _ _
  case addi | slti | sltiu | xori | ori | andi | slli | srli | srai =>
    simp only [Machine.exec, execAddi, execSlti, execSltiu, execXori, execOri, execAndi, execSlli, execSrli, execSrai,
      hf.reg, hf.setReg, mapResult]
  case add | sub | sll | slt | sltu | xor | srl | sra | or | and =>
    simp only [Machine.exec, execAdd, execSub, execSll, execSlt, execSltu, execXor, execSrl, execSra, execOr, execAnd,
      hf.aluOp]
  case ecall => exact hf.ecallWith s params

/-- So does every step, up to what `retire` makes of the change: `g` is how a completed step shows `f`, and is `f` on a
state in error. -/
theorem step {g : State → State} (hretire : ∀ u, (f u).retire = g u.retire)
    (herror : ∀ (u : State) r, f (u.setStatus (.error r)) = g (u.setStatus (.error r))) :
    Machine.step (f s) = mapResult g (Machine.step s) := by
  have hraise (u : State) (r : ErrorReason) : Machine.raise r (f u) = mapResult g (Machine.raise r u) := by
    rw [hf.raise, Machine.raise, mapResult, herror]; rfl
  by_cases hs : s.status = .running
  · have hs' : (f s).status = .running := (hf.status s).trans hs
    cases hfetch : Machine.fetch s with
    | error r => rw [step_of_fetch_error hs' ((hf.fetch s).trans hfetch), step_of_fetch_error hs hfetch, hraise]
    | ok w =>
      have hfetch' := (hf.fetch s).trans hfetch
      cases hdecode : decode w with
      | error x => rw [step_of_reject hs' hfetch' hdecode, step_of_reject hs hfetch hdecode, hf.advance, hraise]
      | ok i =>
        rw [step_of_decode hs' hfetch' hdecode, step_of_decode hs hfetch hdecode, hf.advance, hf.exec]
        rcases exec_cases i s.advance with ⟨u, e⟩ | ⟨r, e⟩ <;> rw [e]
        · exact congrArg _ (hretire u)
        · exact congrArg retireResult ((hf.raise s.advance r).symm.trans (hraise s.advance r))
  · rw [step_ended hs, step_ended (hf.status s ▸ hs)]; rfl

end Unread

/-! ### The output stream -/

/-- A state with more bytes written out before its own. -/
def State.withEarlierOut (o : List Byte) (s : State) : State := { s with out := o ++ s.out }

/-- No operation reads the output (R20). -/
theorem unread_withEarlierOut (o : List Byte) : Unread (State.withEarlierOut o) where
  pc _ := rfl
  regs _ := rfl
  mem _ := rfl
  memSize _ := rfl
  status _ := rfl
  setReg _ _ _ := rfl
  setPc _ _ := rfl
  setMem _ _ := rfl
  setStatus _ _ := rfl
  emit s bs := congrArg (fun out => { s with out }) (List.append_assoc o s.out bs)

/-- What an instruction that completes has done to the output: nothing, unless it is system call 1 (R163). -/
theorem InstrEffect.out {i : Instr} {s t : State} (h : InstrEffect s i t) :
    t.out = s.out ∨ (i = .ecall ∧ s.reg params.syscallNumReg = 1#32
      ∧ t.out = s.out ++ (List.range (s.reg params.writeLenReg).toNat).map
          fun k => s.byte ((s.reg params.writePtrReg).toNat + k)) := by
  cases h with
  | wroteOut call number => exact .inr ⟨call, number, rfl⟩
  | wroteReg | jumped | branched | stored | exited => exact .inl rfl

/-- Settles O40: the loader writes nothing out, a step does to the output what its instruction does, and an earlier
output is a change that nothing reads. -/
theorem outputOnlyGrowsBySystemCallOne : Obligations.OutputOnlyGrowsBySystemCallOne := by
  refine ⟨rfl, fun blob s h => ?_, fun s t h => ?_, fun s o => ?_⟩
  · rw [load_next h]; rfl
  · obtain ⟨_, w, i, u, hfetch, hdecode, hexec, rfl⟩ := step_next h
    rcases (exec_instrEffect hexec).out with same | ⟨rfl, number, grown⟩
    · exact .inl same
    · exact .inr ⟨⟨w, hfetch, hdecode⟩, number, grown⟩
  · exact (unread_withEarlierOut o).step s (fun _ => rfl) fun _ _ => rfl

end Sys2Proof.Slice0
end

section
/-! Proofs of the statements on the encoding (spec/30_encoding.md): the register fields and the unscrambled immediates
(R51, R53, R54, R57). The decoder's inversion lemmas give each operand as a field of the word; what is left to show is
that imm_I, as the 32-bit value an instruction reads, is the sign-extended field, and within its range. -/

open Sys2Proof Sys2Proof.Machine

namespace Sys2Proof.Slice0

/-! ### The immediate of the I format -/

/-- imm_I is word[31:20] below twenty copies of word[31] (R53). -/
theorem sext_immIOf (w : Word) : sext (immIOf w) = (w.extractLsb' 31 1).signExtend 20 ++ w.extractLsb' 20 12 := by
  apply BitVec.eq_of_getLsbD_eq
  intro k hk
  rw [sext, immIOf, BitVec.getLsbD_signExtend, BitVec.getLsbD_append]
  by_cases field : k < 12
  · simp [hk, field]
  · have copies : k - 12 < 20 := by omega
    rw [BitVec.getLsbD_signExtend]
    by_cases lowest : k - 12 = 0 <;> simp [hk, field, copies, lowest, BitVec.msb_eq_getLsbD_last]

/-- A sign-extended 12-bit field is from -2048 to 2047 (R53). -/
theorem toInt_sext_bounds (imm : BitVec 12) : -2048 ≤ (sext imm).toInt ∧ (sext imm).toInt ≤ 2047 := by
  have same : (sext imm).toInt = imm.toInt := BitVec.toInt_signExtend_of_le (by decide)
  have low := imm.le_toInt
  have high := imm.toInt_lt
  omega

/-! ### The fields by the decoder's families -/

/-- The operands JALR, the loads and the immediate ALU instructions share: rd, rs1 and imm_I (R51, R53). -/
theorem iFormat_fields (w : Word) :
    rdOf w = w.extractLsb' 7 5 ∧ rs1Of w = w.extractLsb' 15 5
      ∧ sext (immIOf w) = (w.extractLsb' 31 1).signExtend 20 ++ w.extractLsb' 20 12
      ∧ -2048 ≤ (sext (immIOf w)).toInt ∧ (sext (immIOf w)).toInt ≤ 2047 :=
  ⟨rfl, rfl, sext_immIOf w, toInt_sext_bounds _⟩

/-- The operands the shifts by an immediate share: rd, rs1 and shamt (R51, R54). -/
theorem shiftImm_fields (w : Word) :
    rdOf w = w.extractLsb' 7 5 ∧ rs1Of w = w.extractLsb' 15 5 ∧ shamtOf w = w.extractLsb' 20 5
      ∧ (shamtOf w).toNat ≤ 31 :=
  ⟨rfl, rfl, rfl, Nat.le_of_lt_succ (shamtOf w).isLt⟩

theorem plainFields_of_decodeBranch {sel : BranchSelectors} {w : Word} {i : Instr} (h : decodeBranch sel w = .ok i) :
    PlainFields w i := by
  rcases decodeBranch_ok h with ⟨-, rfl⟩ | ⟨-, rfl⟩ | ⟨-, rfl⟩ | ⟨-, rfl⟩ | ⟨-, rfl⟩ | ⟨-, rfl⟩ <;> exact ⟨rfl, rfl⟩

theorem plainFields_of_decodeLoad {sel : LoadSelectors} {w : Word} {i : Instr} (h : decodeLoad sel w = .ok i) :
    PlainFields w i := by
  rcases decodeLoad_ok h with ⟨-, rfl⟩ | ⟨-, rfl⟩ | ⟨-, rfl⟩ | ⟨-, rfl⟩ | ⟨-, rfl⟩ <;> exact iFormat_fields w

theorem plainFields_of_decodeStore {sel : StoreSelectors} {w : Word} {i : Instr} (h : decodeStore sel w = .ok i) :
    PlainFields w i := by
  rcases decodeStore_ok h with ⟨-, rfl⟩ | ⟨-, rfl⟩ | ⟨-, rfl⟩ <;> exact ⟨rfl, rfl⟩

theorem plainFields_of_decodeOpImm {sel : OpImmSelectors} {w : Word} {i : Instr} (h : decodeOpImm sel w = .ok i) :
    PlainFields w i := by
  rcases decodeOpImm_ok h with
    ⟨-, rfl⟩ | ⟨-, rfl⟩ | ⟨-, rfl⟩ | ⟨-, rfl⟩ | ⟨-, rfl⟩ | ⟨-, rfl⟩ | ⟨-, left⟩ | ⟨-, right⟩
  iterate 6 exact iFormat_fields w
  · obtain ⟨-, rfl⟩ := decodeShiftLeftImm_ok left
    exact shiftImm_fields w
  · rcases decodeShiftRightImm_ok right with ⟨-, rfl⟩ | ⟨-, rfl⟩ <;> exact shiftImm_fields w

theorem plainFields_of_decodeOp {sel : OpSelectors} {w : Word} {i : Instr} (h : decodeOp sel w = .ok i) :
    PlainFields w i := by
  rcases decodeOp_ok h with ⟨-, rfl⟩ | ⟨-, rfl⟩ | ⟨-, rfl⟩ | ⟨-, rfl⟩ | ⟨-, rfl⟩ | ⟨-, rfl⟩ | ⟨-, rfl⟩ | ⟨-, rfl⟩
    | ⟨-, rfl⟩ | ⟨-, rfl⟩ <;> exact ⟨rfl, rfl, rfl⟩

/-- Settles O5: the decoder's alternatives, one by one; each instruction has its operands from the word's fields. -/
theorem plainFieldsAreTheWordsBits : Obligations.PlainFieldsAreTheWordsBits := by
  intro c w i h
  rcases decodeWith_ok h with ⟨-, rfl⟩ | ⟨-, rfl⟩ | ⟨-, rfl⟩ | ⟨-, rfl⟩ | ⟨-, jalr⟩ | ⟨-, branch⟩ | ⟨-, load⟩
    | ⟨-, store⟩ | ⟨-, opImm⟩ | ⟨-, op⟩
  · trivial
  · exact ⟨rfl, rfl⟩
  · exact ⟨rfl, rfl⟩
  · exact rfl
  · obtain ⟨-, rfl⟩ := decodeJalr_ok jalr
    exact iFormat_fields w
  · exact plainFields_of_decodeBranch branch
  · exact plainFields_of_decodeLoad load
  · exact plainFields_of_decodeStore store
  · exact plainFields_of_decodeOpImm opImm
  · exact plainFields_of_decodeOp op

end Sys2Proof.Slice0
end

section
/-! Proof of the statement on how a step ends the run (spec/40_step_cycle.md R85): what the instructions do to the run
status, and that a Running state at the end of memory raises. -/

open Sys2Proof Sys2Proof.Machine

namespace Sys2Proof.Slice0

/-- What an instruction that completes has done to the run status: nothing, unless it is the exit call (R85, R162). -/
theorem InstrEffect.status {i : Instr} {s t : State} (h : InstrEffect s i t) :
    t.status = s.status
      ∨ (i = .ecall ∧ s.reg params.syscallNumReg = params.exitSentinel ∧ t.status = .finished) := by
  cases h with
  | exited call number => exact .inr ⟨call, number, rfl⟩
  | wroteReg | jumped | branched | stored | wroteOut => exact .inl rfl

/-- An environment call that completes is the exit call, which finishes, or system call 1, which goes on (R85, R160). -/
theorem execEcall_next_status {s t : State} (h : execEcall s = .next t) :
    (s.reg params.syscallNumReg = params.exitSentinel ∧ t.status = .finished)
      ∨ (s.reg params.syscallNumReg = 1#32 ∧ t.status = s.status) := by
  rcases ecallWith_cases params s with ⟨exit, e⟩ | ⟨_, write, _, _, e⟩ | ⟨_, _, _, e⟩ | ⟨_, _, e⟩ <;>
    cases e.symm.trans h
  · exact .inl ⟨exit, rfl⟩
  · exact .inr ⟨write, rfl⟩

/-- A step that finishes ran the exit call: a step starts Running, and nothing else changes the run status (R85). -/
theorem step_finished {s t : State} (h : step s = .next t) (finished : t.status = .finished) :
    Fetches s .ecall ∧ s.reg params.syscallNumReg = params.exitSentinel := by
  obtain ⟨running, w, i, u, hfetch, hdecode, hexec, rfl⟩ := step_next h
  rcases (exec_instrEffect hexec).status with same | ⟨rfl, number, _⟩
  · have : u.status = .running := same.trans running
    cases this.symm.trans finished
  · exact ⟨⟨w, hfetch, hdecode⟩, number⟩

/-- A Running state whose fetch would leave memory raises, as a step that completes has fetched inside it (R81, R85). -/
theorem step_raises_of_fetch_past_memory {s : State} (running : s.status = .running)
    (past : s.memSize.toNat < s.pc.toNat + 4) : ∃ r a, step s = .fault (.error r a) := by
  refine (step_running running).resolve_left fun ⟨t, h⟩ => ?_
  obtain ⟨_, w, _, _, hfetch, _⟩ := step_next h
  obtain ⟨_, inside, _⟩ := fetch_cases hfetch
  omega

/-- Settles O36: the exit call alone sets the run status, so the clauses on instructions and on steps are read off what
an instruction has done; the end of memory stops the fetch. -/
theorem onlyTheExitCallFinishes : Obligations.OnlyTheExitCallFinishes := by
  refine ⟨fun i s t notEcall h => ?_, fun s t h => execEcall_next_status h, exec_cases, fun s t => step_finished,
    fun s => step_raises_of_fetch_past_memory⟩
  exact (exec_instrEffect h).status.resolve_right fun ⟨isEcall, _⟩ => notEcall isEcall

end Sys2Proof.Slice0
end

section
/-! Proof of the statement on unknown system calls (spec/48_ecall_syscall.md R164): the dispatcher raises on every
number that is no system call's, so a call that completes carried one of the two. -/

open Sys2Proof Sys2Proof.Machine

namespace Sys2Proof.Slice0

/-- A number that is neither the exit sentinel nor 1 is no system call (R164). -/
theorem ecallWith_of_unknown {c : Config} {s : State} (notExit : s.reg c.syscallNumReg ≠ c.exitSentinel)
    (notWrite : s.reg c.syscallNumReg ≠ sysWriteNum) : ecallWith c s = raise .syscall s := by
  rcases ecallWith_cases c s with ⟨exit, _⟩ | ⟨_, write, _⟩ | ⟨_, write, _⟩ | ⟨_, _, e⟩
  · exact absurd exit notExit
  · exact absurd write notWrite
  · exact absurd write notWrite
  · exact e

/-- An environment call that completes, whatever the parameters, carried the number of one of the two system calls
(R162 to R164). -/
theorem ecallWith_next_number {c : Config} {s t : State} (h : ecallWith c s = .next t) :
    s.reg c.syscallNumReg = c.exitSentinel ∨ s.reg c.syscallNumReg = sysWriteNum := by
  by_contra unknown
  obtain ⟨notExit, notWrite⟩ := not_or.mp unknown
  cases (ecallWith_of_unknown notExit notWrite).symm.trans h

/-- Settles O28: the dispatcher raises on a number that is neither call's, and 0, 64 and 93 are not 1. -/
theorem unknownSystemCallIsFatal : Obligations.UnknownSystemCallIsFatal := by
  refine ⟨fun c s => ecallWith_of_unknown, fun c s t => ecallWith_next_number, fun c s notExit listed => ?_,
    fun _ => rfl⟩
  have notWrite : s.reg c.syscallNumReg ≠ sysWriteNum := fun write =>
    absurd (write ▸ listed) (by decide : sysWriteNum ∉ [0#32, 64#32, 93#32])
  exact ecallWith_of_unknown notExit.symm notWrite

end Sys2Proof.Slice0
end

section
/-! Proof of the statement on the memory the loader builds (spec/70_reset_and_hazards.md R190, R191): a blob written as
an image and a trailer splits into the two again, and what is loaded reads as the image below zero bytes. -/

open Sys2Proof Sys2Proof.Machine

namespace Sys2Proof.Slice0

/-! ### A blob as an image and its trailer -/

section
variable (image : List Byte) {trailer : List Byte} (h : trailer.length = trailerLen)
include h

/-- The trailer starts where the image ends (R190). -/
theorem trailer_start : (image ++ trailer).length - trailerLen = image.length := by
  rw [List.length_append, h, Nat.add_sub_cancel]

/-- The image is what stands before the trailer (R191). -/
theorem imageOf_append : imageOf (image ++ trailer) = image := by
  rw [imageOf, trailer_start image h, List.take_left]

/-- The request is the number in the trailer (R190). -/
theorem bssRequest_append : bssRequest (image ++ trailer) = natOfBytesLE trailer := by
  rw [bssRequest, trailer_start image h, List.drop_left]

/-- MEM_SIZE is the image's length and the clamped request (R191). -/
theorem loadedSize_append : loadedSize (image ++ trailer) = image.length + min (natOfBytesLE trailer) bssMax := by
  rw [loadedSize, bssLen, imageOf_append image h, bssRequest_append image h]

end

/-- The number in four bytes, the least significant first (R190). -/
theorem natOfBytesLE_four (b0 b1 b2 b3 : Byte) :
    natOfBytesLE [b0, b1, b2, b3] = b0.toNat + 256 * b1.toNat + 65536 * b2.toNat + 16777216 * b3.toNat := by
  simp only [natOfBytesLE]
  omega

/-! ### The machine the loader constructs -/

/-- A blob that is long enough and whose memory is small enough loads (R191, R192). -/
theorem load_of_fits {blob : List Byte} (long : trailerLen ≤ blob.length) (small : loadedSize blob < 2 ^ 32) :
    load blob = .next (State.boot params (Memory.ofBytes 0 (imageOf blob)) (BitVec.ofNat 32 (loadedSize blob))) := by
  rcases loadWith_cases params blob with ⟨short | large, -⟩ | ⟨-, -, e⟩
  · omega
  · omega
  · exact e

/-- A byte of a boot state whose memory is an image at address 0: the image's, and 0 past its end (R191). -/
theorem byte_boot_ofBytes (c : Config) (image : List Byte) (memSize : Word) (a : Nat) :
    (State.boot c (Memory.ofBytes 0 image) memSize).byte a = image[a]?.getD 0#8 := by
  rw [State.byte, State.boot, Memory.read_ofBytes, if_pos (Nat.zero_le a), Nat.sub_zero, Memory.unlisted]

/-- Settles O48: the blob splits into its image and its trailer, so the loader boots on the image's bytes with the
clamped request above them; inside the image a byte is the image's, past it no byte is listed. -/
theorem loaderBuildsTheMemory : Obligations.LoaderBuildsTheMemory := by
  intro image b0 b1 b2 b3 small
  have size := loadedSize_append image (trailer := [b0, b1, b2, b3]) rfl
  rw [natOfBytesLE_four, bssMax] at size
  have fits : loadedSize (image ++ [b0, b1, b2, b3]) < 2 ^ 32 := size ▸ small
  have long : trailerLen ≤ (image ++ [b0, b1, b2, b3]).length := by simp [trailerLen]
  refine ⟨_, load_of_fits long fits, (loadedSize_toNat fits).trans size, fun a inside => ?_, fun a past _ => ?_⟩
  · rw [byte_boot_ofBytes, imageOf_append image rfl, List.getElem?_eq_getElem inside, Option.getD_some]
  · rw [byte_boot_ofBytes, imageOf_append image rfl, List.getElem?_eq_none past, Option.getD_none]

end Sys2Proof.Slice0
end

section
/-! Proofs of the statements on the decoder and the encoder (spec/30_encoding.md): the round trips (R52, R66), the
opcode table (R61), the unknown words (R64) and the split immediates (R55, R56, R58). The law they share is the decoder
read both ways, family by family: with numbers that tell the rows apart, the alternatives exclude each other. -/

open Sys2Proof Sys2Proof.Machine

namespace Sys2Proof.Slice0

/-! ### The decoder, both ways -/

section
variable {w : Word} {i : Instr}

/-- JALR is decoded exactly on its selector (R60). -/
theorem decodeJalr_iff {sel : BitVec 3} :
    decodeJalr sel w = .ok i ↔ funct3Of w = sel ∧ i = .jalr (rdOf w) (rs1Of w) (immIOf w) := by
  refine ⟨decodeJalr_ok, ?_⟩
  rintro ⟨rfl, rfl⟩
  exact if_pos rfl

/-- Branches whose selectors differ are decoded exactly by selector: no earlier row takes a later row's word. -/
theorem decodeBranch_iff {sel : BranchSelectors}
    (distinct : [sel.beq, sel.bne, sel.blt, sel.bge, sel.bltu, sel.bgeu].Nodup) :
    decodeBranch sel w = .ok i ↔
      (funct3Of w = sel.beq ∧ i = .beq (rs1Of w) (rs2Of w) (immBOf w))
      ∨ (funct3Of w = sel.bne ∧ i = .bne (rs1Of w) (rs2Of w) (immBOf w))
      ∨ (funct3Of w = sel.blt ∧ i = .blt (rs1Of w) (rs2Of w) (immBOf w))
      ∨ (funct3Of w = sel.bge ∧ i = .bge (rs1Of w) (rs2Of w) (immBOf w))
      ∨ (funct3Of w = sel.bltu ∧ i = .bltu (rs1Of w) (rs2Of w) (immBOf w))
      ∨ (funct3Of w = sel.bgeu ∧ i = .bgeu (rs1Of w) (rs2Of w) (immBOf w)) := by
  refine ⟨decodeBranch_ok, fun rows => ?_⟩
  simp only [List.nodup_cons, List.mem_cons, not_or] at distinct
  grind [decodeBranch]

/-- Loads whose selectors differ are decoded exactly by selector. -/
theorem decodeLoad_iff {sel : LoadSelectors} (distinct : [sel.lb, sel.lh, sel.lw, sel.lbu, sel.lhu].Nodup) :
    decodeLoad sel w = .ok i ↔
      (funct3Of w = sel.lb ∧ i = .lb (rdOf w) (rs1Of w) (immIOf w))
      ∨ (funct3Of w = sel.lh ∧ i = .lh (rdOf w) (rs1Of w) (immIOf w))
      ∨ (funct3Of w = sel.lw ∧ i = .lw (rdOf w) (rs1Of w) (immIOf w))
      ∨ (funct3Of w = sel.lbu ∧ i = .lbu (rdOf w) (rs1Of w) (immIOf w))
      ∨ (funct3Of w = sel.lhu ∧ i = .lhu (rdOf w) (rs1Of w) (immIOf w)) := by
  refine ⟨decodeLoad_ok, fun rows => ?_⟩
  simp only [List.nodup_cons, List.mem_cons, not_or] at distinct
  grind [decodeLoad]

/-- Stores whose selectors differ are decoded exactly by selector. -/
theorem decodeStore_iff {sel : StoreSelectors} (distinct : [sel.sb, sel.sh, sel.sw].Nodup) :
    decodeStore sel w = .ok i ↔
      (funct3Of w = sel.sb ∧ i = .sb (rs2Of w) (rs1Of w) (immSOf w))
      ∨ (funct3Of w = sel.sh ∧ i = .sh (rs2Of w) (rs1Of w) (immSOf w))
      ∨ (funct3Of w = sel.sw ∧ i = .sw (rs2Of w) (rs1Of w) (immSOf w)) := by
  refine ⟨decodeStore_ok, fun rows => ?_⟩
  simp only [List.nodup_cons, List.mem_cons, not_or] at distinct
  grind [decodeStore]

/-- SLLI is decoded exactly on its top 7 bits (R62). -/
theorem decodeShiftLeftImm_iff {sel : OpImmSelectors} :
    decodeShiftLeftImm sel w = .ok i ↔
      funct7Of w = sel.slliTop ∧ i = .slli (rdOf w) (rs1Of w) (shamtOf w) := by
  refine ⟨decodeShiftLeftImm_ok, ?_⟩
  rintro ⟨top, rfl⟩
  exact if_pos top

/-- The right shifts by an immediate are decoded exactly by their top 7 bits (R62). -/
theorem decodeShiftRightImm_iff {sel : OpImmSelectors} (distinct : sel.srliTop ≠ sel.sraiTop) :
    decodeShiftRightImm sel w = .ok i ↔
      (funct7Of w = sel.srliTop ∧ i = .srli (rdOf w) (rs1Of w) (shamtOf w))
      ∨ (funct7Of w = sel.sraiTop ∧ i = .srai (rdOf w) (rs1Of w) (shamtOf w)) := by
  refine ⟨decodeShiftRightImm_ok, fun rows => ?_⟩
  grind [decodeShiftRightImm]

/-- The immediate ALU family is decoded exactly by selector, the shifts going on to their top 7 bits. -/
theorem decodeOpImm_iff {sel : OpImmSelectors}
    (distinct : [sel.addi, sel.slti, sel.sltiu, sel.xori, sel.ori, sel.andi, sel.shiftLeft, sel.shiftRight].Nodup) :
    decodeOpImm sel w = .ok i ↔
      (funct3Of w = sel.addi ∧ i = .addi (rdOf w) (rs1Of w) (immIOf w))
      ∨ (funct3Of w = sel.slti ∧ i = .slti (rdOf w) (rs1Of w) (immIOf w))
      ∨ (funct3Of w = sel.sltiu ∧ i = .sltiu (rdOf w) (rs1Of w) (immIOf w))
      ∨ (funct3Of w = sel.xori ∧ i = .xori (rdOf w) (rs1Of w) (immIOf w))
      ∨ (funct3Of w = sel.ori ∧ i = .ori (rdOf w) (rs1Of w) (immIOf w))
      ∨ (funct3Of w = sel.andi ∧ i = .andi (rdOf w) (rs1Of w) (immIOf w))
      ∨ (funct3Of w = sel.shiftLeft ∧ decodeShiftLeftImm sel w = .ok i)
      ∨ (funct3Of w = sel.shiftRight ∧ decodeShiftRightImm sel w = .ok i) := by
  refine ⟨decodeOpImm_ok, fun rows => ?_⟩
  simp only [List.nodup_cons, List.mem_cons, not_or] at distinct
  grind [decodeOpImm]

/-- The register ALU family is decoded exactly by selector pair (R63). -/
theorem decodeOp_iff {sel : OpSelectors}
    (distinct : [sel.add, sel.sub, sel.sll, sel.slt, sel.sltu, sel.xor, sel.srl, sel.sra, sel.or, sel.and].Nodup) :
    decodeOp sel w = .ok i ↔
      (selectorOf w = sel.add ∧ i = .add (rdOf w) (rs1Of w) (rs2Of w))
      ∨ (selectorOf w = sel.sub ∧ i = .sub (rdOf w) (rs1Of w) (rs2Of w))
      ∨ (selectorOf w = sel.sll ∧ i = .sll (rdOf w) (rs1Of w) (rs2Of w))
      ∨ (selectorOf w = sel.slt ∧ i = .slt (rdOf w) (rs1Of w) (rs2Of w))
      ∨ (selectorOf w = sel.sltu ∧ i = .sltu (rdOf w) (rs1Of w) (rs2Of w))
      ∨ (selectorOf w = sel.xor ∧ i = .xor (rdOf w) (rs1Of w) (rs2Of w))
      ∨ (selectorOf w = sel.srl ∧ i = .srl (rdOf w) (rs1Of w) (rs2Of w))
      ∨ (selectorOf w = sel.sra ∧ i = .sra (rdOf w) (rs1Of w) (rs2Of w))
      ∨ (selectorOf w = sel.or ∧ i = .or (rdOf w) (rs1Of w) (rs2Of w))
      ∨ (selectorOf w = sel.and ∧ i = .and (rdOf w) (rs1Of w) (rs2Of w)) := by
  refine ⟨decodeOp_ok, fun rows => ?_⟩
  simp only [List.nodup_cons, List.mem_cons, not_or] at distinct
  grind [decodeOp]

/-- THE DECODER, BOTH WAYS: with numbers that tell the rows apart a word decodes to an instruction exactly if its
opcode is the family's and the family decodes to it (R59, R60). The ECALL word has an opcode of its own, so its check
comes first without taking a word from a family. -/
theorem decodeWith_iff {c : Config} (distinct : DistinctNumbers c) :
    decodeWith c w = .ok i ↔
      (w = c.ecallWord ∧ i = .ecall)
      ∨ (opcodeOf w = c.opcLui ∧ i = .lui (rdOf w) (immUOf w))
      ∨ (opcodeOf w = c.opcAuipc ∧ i = .auipc (rdOf w) (immUOf w))
      ∨ (opcodeOf w = c.opcJal ∧ i = .jal (rdOf w) (immJOf w))
      ∨ (opcodeOf w = c.opcJalr ∧ decodeJalr c.jalrSel w = .ok i)
      ∨ (opcodeOf w = c.opcBranch ∧ decodeBranch c.branchSel w = .ok i)
      ∨ (opcodeOf w = c.opcLoad ∧ decodeLoad c.loadSel w = .ok i)
      ∨ (opcodeOf w = c.opcStore ∧ decodeStore c.storeSel w = .ok i)
      ∨ (opcodeOf w = c.opcOpImm ∧ decodeOpImm c.opImmSel w = .ok i)
      ∨ (opcodeOf w = c.opcOp ∧ decodeOp c.opSel w = .ok i) := by
  refine ⟨decodeWith_ok, fun rows => ?_⟩
  obtain ⟨opcodes, -⟩ := distinct
  simp only [List.nodup_cons, List.mem_cons, not_or] at opcodes
  unfold decodeWith
  grind
end


/-! ### Decoding an encoded instruction -/

/-- Format by format, the fields of the encoded word are the operands and the row's numbers, so the row's alternative of
the decoder holds. -/
theorem decodeWith_encodeWith {c : Config} (distinct : DistinctNumbers c) {i : Instr} (wf : i.wellFormed = true) :
    decodeWith c (encodeWith c i) = .ok i := by
  obtain ⟨-, branches, loads, stores, opImms, tops, ops⟩ := id distinct
  rw [decodeWith_iff distinct]
  cases i
  case lui | auipc => simp [encodeWith, opcodeOf_encodeU, rdOf_encodeU, immUOf_encodeU]
  case jal => simp [encodeWith, opcodeOf_encodeJ, rdOf_encodeJ, immJOf_encodeJ _ _ _ wf]
  case jalr =>
    simp [encodeWith, decodeJalr_iff, opcodeOf_encodeI, funct3Of_encodeI, rdOf_encodeI, rs1Of_encodeI, immIOf_encodeI]
  case beq | bne | blt | bge | bltu | bgeu =>
    simp [encodeWith, decodeBranch_iff branches, opcodeOf_encodeB, funct3Of_encodeB, rs2Of_encodeB, rs1Of_encodeB,
      immBOf_encodeB _ _ _ _ _ wf]
  case lb | lh | lw | lbu | lhu =>
    simp [encodeWith, decodeLoad_iff loads, opcodeOf_encodeI, funct3Of_encodeI, rdOf_encodeI, rs1Of_encodeI,
      immIOf_encodeI]
  case sb | sh | sw =>
    simp [encodeWith, decodeStore_iff stores, opcodeOf_encodeS, funct3Of_encodeS, rs2Of_encodeS, rs1Of_encodeS,
      immSOf_encodeS]
  case addi | slti | sltiu | xori | ori | andi =>
    simp [encodeWith, decodeOpImm_iff opImms, opcodeOf_encodeI, funct3Of_encodeI, rdOf_encodeI, rs1Of_encodeI,
      immIOf_encodeI]
  case slli | srli | srai =>
    simp [encodeWith, decodeOpImm_iff opImms, decodeShiftLeftImm_iff, decodeShiftRightImm_iff tops, opcodeOf_encodeR,
      funct7Of_encodeR, funct3Of_encodeR, shamtOf_encodeR, rs1Of_encodeR, rdOf_encodeR]
  case add | sub | sll | slt | sltu | xor | srl | sra | or | and =>
    simp [encodeWith, decodeOp_iff ops, selectorOf, opcodeOf_encodeR, funct7Of_encodeR, funct3Of_encodeR,
      rs2Of_encodeR, rs1Of_encodeR, rdOf_encodeR]
  case ecall => exact .inl ⟨rfl, rfl⟩

/-- The defaults tell the rows apart (D1, D2). -/
theorem distinctNumbers_params : DistinctNumbers params := by unfold DistinctNumbers; decide

/-- Settles O1: the decoder read backwards at the encoded word, and the defaults by evaluation. -/
theorem decodeOfEncodeIsTheInstruction : Obligations.DecodeOfEncodeIsTheInstruction :=
  ⟨fun _ _ distinct wf => decodeWith_encodeWith distinct wf, distinctNumbers_params⟩

/-! ### Encoding a decoded word -/

section
variable {c : Config} {w : Word} {i : Instr}

theorem encode_of_decodeJalr (op : opcodeOf w = c.opcJalr) (h : decodeJalr c.jalrSel w = .ok i) :
    i.wellFormed = true ∧ encodeWith c i = w := by
  obtain ⟨sel, rfl⟩ := decodeJalr_ok h
  exact ⟨rfl, by rw [encodeWith, ← op, ← sel, encodeI_fields]⟩

theorem encode_of_decodeBranch (op : opcodeOf w = c.opcBranch) (h : decodeBranch c.branchSel w = .ok i) :
    i.wellFormed = true ∧ encodeWith c i = w := by
  rcases decodeBranch_ok h with ⟨sel, rfl⟩ | ⟨sel, rfl⟩ | ⟨sel, rfl⟩ | ⟨sel, rfl⟩ | ⟨sel, rfl⟩ | ⟨sel, rfl⟩ <;>
    exact ⟨evenImm_immBOf w, by rw [encodeWith, ← op, ← sel, encodeB_fields]⟩

theorem encode_of_decodeLoad (op : opcodeOf w = c.opcLoad) (h : decodeLoad c.loadSel w = .ok i) :
    i.wellFormed = true ∧ encodeWith c i = w := by
  rcases decodeLoad_ok h with ⟨sel, rfl⟩ | ⟨sel, rfl⟩ | ⟨sel, rfl⟩ | ⟨sel, rfl⟩ | ⟨sel, rfl⟩ <;>
    exact ⟨rfl, by rw [encodeWith, ← op, ← sel, encodeI_fields]⟩

theorem encode_of_decodeStore (op : opcodeOf w = c.opcStore) (h : decodeStore c.storeSel w = .ok i) :
    i.wellFormed = true ∧ encodeWith c i = w := by
  rcases decodeStore_ok h with ⟨sel, rfl⟩ | ⟨sel, rfl⟩ | ⟨sel, rfl⟩ <;>
    exact ⟨rfl, by rw [encodeWith, ← op, ← sel, encodeS_fields]⟩

theorem encode_of_decodeOpImm (op : opcodeOf w = c.opcOpImm) (h : decodeOpImm c.opImmSel w = .ok i) :
    i.wellFormed = true ∧ encodeWith c i = w := by
  rcases decodeOpImm_ok h with ⟨sel, rfl⟩ | ⟨sel, rfl⟩ | ⟨sel, rfl⟩ | ⟨sel, rfl⟩ | ⟨sel, rfl⟩ | ⟨sel, rfl⟩
    | ⟨sel, left⟩ | ⟨sel, right⟩
  iterate 6 exact ⟨rfl, by rw [encodeWith, ← op, ← sel, encodeI_fields]⟩
  · obtain ⟨top, rfl⟩ := decodeShiftLeftImm_ok left
    exact ⟨rfl, by rw [encodeWith, ← op, ← sel, ← top]; exact encodeR_fields w⟩
  · rcases decodeShiftRightImm_ok right with ⟨top, rfl⟩ | ⟨top, rfl⟩ <;>
      exact ⟨rfl, by rw [encodeWith, ← op, ← sel, ← top]; exact encodeR_fields w⟩

theorem encode_of_decodeOp (op : opcodeOf w = c.opcOp) (h : decodeOp c.opSel w = .ok i) :
    i.wellFormed = true ∧ encodeWith c i = w := by
  rcases decodeOp_ok h with ⟨sel, rfl⟩ | ⟨sel, rfl⟩ | ⟨sel, rfl⟩ | ⟨sel, rfl⟩ | ⟨sel, rfl⟩ | ⟨sel, rfl⟩ | ⟨sel, rfl⟩
    | ⟨sel, rfl⟩ | ⟨sel, rfl⟩ | ⟨sel, rfl⟩ <;>
    exact ⟨rfl, by rw [encodeWith, ← op, ← sel]; exact encodeR_fields w⟩

/-- A decoded instruction is well formed, and the fields it was decoded from and its row's numbers are the whole word
(R66). -/
theorem encodeWith_of_decodeWith (h : decodeWith c w = .ok i) : i.wellFormed = true ∧ encodeWith c i = w := by
  rcases decodeWith_ok h with ⟨rfl, rfl⟩ | ⟨op, rfl⟩ | ⟨op, rfl⟩ | ⟨op, rfl⟩ | ⟨op, jalr⟩ | ⟨op, branch⟩ | ⟨op, load⟩
    | ⟨op, store⟩ | ⟨op, opImm⟩ | ⟨op, alu⟩
  · exact ⟨rfl, rfl⟩
  · exact ⟨rfl, by rw [encodeWith, ← op, encodeU_fields]⟩
  · exact ⟨rfl, by rw [encodeWith, ← op, encodeU_fields]⟩
  · exact ⟨evenImm_immJOf w, by rw [encodeWith, ← op, encodeJ_fields]⟩
  · exact encode_of_decodeJalr op jalr
  · exact encode_of_decodeBranch op branch
  · exact encode_of_decodeLoad op load
  · exact encode_of_decodeStore op store
  · exact encode_of_decodeOpImm op opImm
  · exact encode_of_decodeOp op alu

end

/-- Settles O2: a decoded instruction's operands and numbers are the fields of its word, which make up the word. -/
theorem encodeOfDecodeIsTheWord : Obligations.EncodeOfDecodeIsTheWord := fun _ _ _ => encodeWith_of_decodeWith

/-! ### The opcode table -/

/-- Every instruction's word lies in its row (R61): format by format, the row's mask clears exactly the operands. -/
theorem tableRow (i : Instr) : Laws.TableRow.Statement i := by
  cases i
  case lui | auipc => exact (mask_encodeU _ _ _).trans rfl
  case jal => exact (mask_encodeJ _ _ _).trans rfl
  case beq | bne | blt | bge | bltu | bgeu => exact (mask_encodeB _ _ _ _ _).trans rfl
  case sb | sh | sw => exact (mask_encodeS _ _ _ _ _).trans rfl
  case slli | srli | srai | add | sub | sll | slt | sltu | xor | srl | sra | or | and =>
    exact (mask_encodeR _ _ _ _ _ _).trans rfl
  case ecall => rfl
  all_goals exact (mask_encodeI _ _ _ _ _).trans rfl

/-- A word in a row has the row's number in every field that the row's mask keeps. -/
theorem extract_of_row {w mask number : Word} (row : w &&& mask = number) (start len : Nat)
    (kept : mask.extractLsb' start len = BitVec.allOnes len) :
    w.extractLsb' start len = number.extractLsb' start len := by
  rw [← row, BitVec.extractLsb'_and, kept, BitVec.and_allOnes]

section
variable {w : Word}

/-- A word in ECALL's row is the ECALL word: the row's mask keeps every bit (R61 row 38). -/
theorem ecallWord_of_row (row : w &&& rowMask .ecall = rowMatch .ecall) : w = params.ecallWord := by
  have all : rowMask .ecall = BitVec.allOnes 32 := by simp [rowMask]
  rwa [all, BitVec.and_allOnes] at row

/-- A word with another opcode than the ECALL word's is not the ECALL word. -/
theorem ne_ecallWord_of_opcode (h : w.extractLsb' 0 7 ≠ 0x73#7) : w ≠ params.ecallWord := by
  rintro rfl
  exact h (by decide)

/-- A word in a row decodes to an instruction of that row: the fields the row's mask keeps lead the decoder there. -/
theorem decode_of_row {i : Instr} (row : w &&& rowMask i = rowMatch i) :
    ∃ j, decode w = .ok j ∧ rowMask j = rowMask i ∧ rowMatch j = rowMatch i := by
  cases i
  case ecall => exact ⟨.ecall, if_pos (ecallWord_of_row row), rfl, rfl⟩
  all_goals
    rw [rowMask, rowMatch] at row
    have op := extract_of_row row 0 7 (by decide)
    rw [decode, decodeWith, if_neg (ne_ecallWord_of_opcode (by simp [op])), opcodeOf, op]
  case lui | auipc | jal => exact ⟨_, rfl, rfl, rfl⟩
  all_goals have f3 := extract_of_row row 12 3 (by decide)
  case jalr => rw [decodeJalr, funct3Of, f3]; exact ⟨_, rfl, rfl, rfl⟩
  case beq | bne | blt | bge | bltu | bgeu => rw [decodeBranch, funct3Of, f3]; exact ⟨_, rfl, rfl, rfl⟩
  case lb | lh | lw | lbu | lhu => rw [decodeLoad, funct3Of, f3]; exact ⟨_, rfl, rfl, rfl⟩
  case sb | sh | sw => rw [decodeStore, funct3Of, f3]; exact ⟨_, rfl, rfl, rfl⟩
  case addi | slti | sltiu | xori | ori | andi => rw [decodeOpImm, funct3Of, f3]; exact ⟨_, rfl, rfl, rfl⟩
  all_goals have f7 := extract_of_row row 25 7 (by decide)
  case slli => rw [decodeOpImm, funct3Of, f3, decodeShiftLeftImm, funct7Of, f7]; exact ⟨_, rfl, rfl, rfl⟩
  case srli | srai => rw [decodeOpImm, funct3Of, f3, decodeShiftRightImm, funct7Of, f7]; exact ⟨_, rfl, rfl, rfl⟩
  case add | sub | sll | slt | sltu | xor | srl | sra | or | and =>
    rw [decodeOp, selectorOf, funct3Of, f3, funct7Of, f7]
    exact ⟨_, rfl, rfl, rfl⟩

end

/-- Settles O3: a decoded word is its instruction's encoding, which lies in the instruction's row; and the fields that a
row fixes lead the decoder to it. -/
theorem decodingFollowsTheOpcodeTable : Obligations.DecodingFollowsTheOpcodeTable := by
  refine ⟨fun w i h => ?_, fun w i row => decode_of_row row⟩
  obtain ⟨-, word⟩ := encodeWith_of_decodeWith h
  exact word ▸ tableRow i

/-! ### The unknown words -/

section
variable (w : Word)

/-! Which selectors and top 7 bits each family decodes at the defaults, as numbers. -/

theorem decodeBranch_params_ok :
    (∃ i, decodeBranch params.branchSel w = .ok i) ↔ (funct3Of w).toNat ≠ 2 ∧ (funct3Of w).toNat ≠ 3 := by
  obtain ⟨-, branches, -⟩ := distinctNumbers_params
  simp only [decodeBranch_iff branches, exists_or, exists_and_left, exists_eq, and_true]
  simp only [params, BitVec.toNat_eq, BitVec.toNat_ofNat]
  omega

theorem decodeLoad_params_ok :
    (∃ i, decodeLoad params.loadSel w = .ok i) ↔ (funct3Of w).toNat ≤ 5 ∧ (funct3Of w).toNat ≠ 3 := by
  obtain ⟨-, -, loads, -⟩ := distinctNumbers_params
  simp only [decodeLoad_iff loads, exists_or, exists_and_left, exists_eq, and_true]
  simp only [params, BitVec.toNat_eq, BitVec.toNat_ofNat]
  omega

theorem decodeStore_params_ok :
    (∃ i, decodeStore params.storeSel w = .ok i) ↔ (funct3Of w).toNat ≤ 2 := by
  obtain ⟨-, -, -, stores, -⟩ := distinctNumbers_params
  simp only [decodeStore_iff stores, exists_or, exists_and_left, exists_eq, and_true]
  simp only [params, BitVec.toNat_eq, BitVec.toNat_ofNat]
  omega

theorem decodeOpImm_params_ok :
    (∃ i, decodeOpImm params.opImmSel w = .ok i) ↔
      ((funct3Of w).toNat = 1 → (funct7Of w).toNat = 0) ∧
      ((funct3Of w).toNat = 5 → (funct7Of w).toNat = 0 ∨ (funct7Of w).toNat = 0x20) := by
  obtain ⟨-, -, -, -, opImms, tops, -⟩ := distinctNumbers_params
  simp only [decodeOpImm_iff opImms, decodeShiftLeftImm_iff, decodeShiftRightImm_iff tops, exists_or,
    exists_and_left, exists_eq, and_true]
  simp only [params, BitVec.toNat_eq, BitVec.toNat_ofNat]
  omega

theorem decodeOp_params_ok :
    (∃ i, decodeOp params.opSel w = .ok i) ↔
      (funct7Of w).toNat = 0 ∨ (funct7Of w).toNat = 0x20 ∧ ((funct3Of w).toNat = 0 ∨ (funct3Of w).toNat = 5) := by
  obtain ⟨-, -, -, -, -, -, ops⟩ := distinctNumbers_params
  simp only [decodeOp_iff ops, exists_or, exists_and_left, exists_eq, and_true]
  simp only [selectorOf, params, Selector.mk.injEq, BitVec.toNat_eq, BitVec.toNat_ofNat]
  omega

/-- Which words decode at the defaults: those of an opcode of the table that its family decodes (R60). -/
theorem decode_ok_iff : (∃ i, decode w = .ok i) ↔
    w = params.ecallWord ∨ opcodeOf w = params.opcLui ∨ opcodeOf w = params.opcAuipc ∨ opcodeOf w = params.opcJal
      ∨ (opcodeOf w = params.opcJalr ∧ funct3Of w = params.jalrSel)
      ∨ (opcodeOf w = params.opcBranch ∧ ∃ i, decodeBranch params.branchSel w = .ok i)
      ∨ (opcodeOf w = params.opcLoad ∧ ∃ i, decodeLoad params.loadSel w = .ok i)
      ∨ (opcodeOf w = params.opcStore ∧ ∃ i, decodeStore params.storeSel w = .ok i)
      ∨ (opcodeOf w = params.opcOpImm ∧ ∃ i, decodeOpImm params.opImmSel w = .ok i)
      ∨ (opcodeOf w = params.opcOp ∧ ∃ i, decodeOp params.opSel w = .ok i) := by
  simp only [decode, decodeWith_iff distinctNumbers_params, decodeJalr_iff, exists_or, exists_and_left, exists_eq,
    and_true]

/-- A word is rejected exactly if it decodes to no instruction. -/
theorem decode_error_iff : (∃ x, decode w = .error x) ↔ ¬ ∃ i, decode w = .ok i := by
  cases decode w <;> simp

end

/-- Settles O4: opcode by opcode, the words of R64 are those that the family's selectors leave over. -/
theorem unknownWordsAreTheNineCases : Obligations.UnknownWordsAreTheNineCases := by
  intro w
  have ecall : w = 0x73#32 → (opcodeOf w).toNat = 0x73 := by rintro rfl; rfl
  have small : (funct3Of w).toNat < 8 := (funct3Of w).isLt
  rw [decode_error_iff, decode_ok_iff, decodeBranch_params_ok, decodeLoad_params_ok, decodeStore_params_ok,
    decodeOpImm_params_ok, decodeOp_params_ok]
  simp only [UnknownWord, params, ne_eq, ← BitVec.toNat_inj, BitVec.toNat_ofNat, opcodeOf, funct3Of,
    funct7Of] at ecall small ⊢
  generalize (w.extractLsb' 0 7).toNat = op at *
  generalize (w.extractLsb' 12 3).toNat = f3 at *
  generalize (w.extractLsb' 25 7).toNat = f7 at *
  by_cases known : op ∈ [0x37, 0x17, 0x6F, 0x67, 0x63, 0x03, 0x23, 0x13, 0x33, 0x73]
  · simp only [List.mem_cons, List.not_mem_nil, or_false] at known
    rcases known with rfl | rfl | rfl | rfl | rfl | rfl | rfl | rfl | rfl | rfl <;> simp at ecall ⊢ <;> omega
  · simp only [known, not_false_eq_true, true_or, iff_true]
    simp only [List.mem_cons, List.not_mem_nil, or_false, not_or] at known
    omega

/-! ### The split immediates -/

/-- A joined word as a number: the upper part signed, the lower one unsigned. -/
theorem toInt_append_of_pos {n m : Nat} (x : BitVec n) (y : BitVec m) (pos : 0 < n) :
    (x ++ y).toInt = 2 ^ m * x.toInt + y.toNat := by
  rw [BitVec.toInt_append, if_neg (by simpa using pos.ne')]

/-- A single bit as a two's-complement number is its negative. -/
theorem toInt_bit (b : BitVec 1) : b.toInt = -(b.toNat : Int) := by revert b; decide

section
variable (w : Word)

/-- imm_S: word[31:25] signed above word[11:7] (R55). -/
theorem toInt_sext_immSOf :
    (sext (immSOf w)).toInt = 32 * (w.extractLsb' 25 7).toInt + (w.extractLsb' 7 5).toNat := by
  rw [sext, BitVec.toInt_signExtend_of_le (by decide), immSOf, toInt_append_of_pos _ _ (by decide)]
  rfl

/-- imm_B: the five pieces by their places, the sign bit negative (R56). -/
theorem toInt_sext_immBOf :
    (sext (immBOf w)).toInt = -4096 * (w.extractLsb' 31 1).toNat + 2048 * (w.extractLsb' 7 1).toNat
      + 32 * (w.extractLsb' 25 6).toNat + 2 * (w.extractLsb' 8 4).toNat := by
  rw [sext, BitVec.toInt_signExtend_of_le (by decide), immBOf]
  iterate 4 rw [toInt_append_of_pos _ _ (by decide)]
  rw [toInt_bit, BitVec.toNat_ofNat]
  omega

/-- imm_J: the five pieces by their places, the sign bit negative (R58). -/
theorem toInt_sext_immJOf :
    (sext (immJOf w)).toInt = -1048576 * (w.extractLsb' 31 1).toNat + 4096 * (w.extractLsb' 12 8).toNat
      + 2048 * (w.extractLsb' 20 1).toNat + 2 * (w.extractLsb' 21 10).toNat := by
  rw [sext, BitVec.toInt_signExtend_of_le (by decide), immJOf]
  iterate 4 rw [toInt_append_of_pos _ _ (by decide)]
  rw [toInt_bit, BitVec.toNat_ofNat]
  omega

end

section
variable {w : Word} {i : Instr}

theorem splitImmediate_of_decodeBranch {sel : BranchSelectors} (h : decodeBranch sel w = .ok i) :
    SplitImmediate w i := by
  rcases decodeBranch_ok h with ⟨-, rfl⟩ | ⟨-, rfl⟩ | ⟨-, rfl⟩ | ⟨-, rfl⟩ | ⟨-, rfl⟩ | ⟨-, rfl⟩ <;>
    exact toInt_sext_immBOf w

theorem splitImmediate_of_decodeStore {sel : StoreSelectors} (h : decodeStore sel w = .ok i) :
    SplitImmediate w i := by
  rcases decodeStore_ok h with ⟨-, rfl⟩ | ⟨-, rfl⟩ | ⟨-, rfl⟩ <;> exact toInt_sext_immSOf w

theorem splitImmediate_of_decodeLoad {sel : LoadSelectors} (h : decodeLoad sel w = .ok i) : SplitImmediate w i := by
  rcases decodeLoad_ok h with ⟨-, rfl⟩ | ⟨-, rfl⟩ | ⟨-, rfl⟩ | ⟨-, rfl⟩ | ⟨-, rfl⟩ <;> trivial

theorem splitImmediate_of_decodeOpImm {sel : OpImmSelectors} (h : decodeOpImm sel w = .ok i) :
    SplitImmediate w i := by
  rcases decodeOpImm_ok h with
    ⟨-, rfl⟩ | ⟨-, rfl⟩ | ⟨-, rfl⟩ | ⟨-, rfl⟩ | ⟨-, rfl⟩ | ⟨-, rfl⟩ | ⟨-, left⟩ | ⟨-, right⟩
  iterate 6 trivial
  · obtain ⟨-, rfl⟩ := decodeShiftLeftImm_ok left
    trivial
  · rcases decodeShiftRightImm_ok right with ⟨-, rfl⟩ | ⟨-, rfl⟩ <;> trivial

theorem splitImmediate_of_decodeOp {sel : OpSelectors} (h : decodeOp sel w = .ok i) : SplitImmediate w i := by
  rcases decodeOp_ok h with ⟨-, rfl⟩ | ⟨-, rfl⟩ | ⟨-, rfl⟩ | ⟨-, rfl⟩ | ⟨-, rfl⟩ | ⟨-, rfl⟩ | ⟨-, rfl⟩ | ⟨-, rfl⟩
    | ⟨-, rfl⟩ | ⟨-, rfl⟩ <;> trivial

end

/-- Settles O6: the stores, the branches and JAL have their immediates from the word's pieces; the other families have
no split immediate. -/
theorem splitImmediatesAreReassembled : Obligations.SplitImmediatesAreReassembled := by
  intro c w i h
  rcases decodeWith_ok h with ⟨-, rfl⟩ | ⟨-, rfl⟩ | ⟨-, rfl⟩ | ⟨-, rfl⟩ | ⟨-, jalr⟩ | ⟨-, branch⟩ | ⟨-, load⟩
    | ⟨-, store⟩ | ⟨-, opImm⟩ | ⟨-, op⟩
  iterate 3 trivial
  · exact toInt_sext_immJOf w
  · obtain ⟨-, rfl⟩ := decodeJalr_ok jalr
    trivial
  · exact splitImmediate_of_decodeBranch branch
  · exact splitImmediate_of_decodeLoad load
  · exact splitImmediate_of_decodeStore store
  · exact splitImmediate_of_decodeOpImm opImm
  · exact splitImmediate_of_decodeOp op

/-! ### Examples -/

/-- Settles O7, by evaluating the decoder on the eleven words. -/
theorem exampleWordsDecode : Obligations.ExampleWordsDecode := by
  unfold Obligations.ExampleWordsDecode
  decide

end Sys2Proof.Slice0
end

section
/-! Proofs of the statements on the invariant and on runs (spec/40_step_cycle.md R87 to R90): what an instruction does
to each part of the invariant is read off `Effect`, a step puts the parts together, and a run repeats the step. -/

open Sys2Proof Sys2Proof.Machine

namespace Sys2Proof.Slice0

/-! ### The parts of the invariant under an instruction -/

section
variable {s t : State} (effect : Effect s t)
include effect

/-- An instruction keeps the memory canonical and inside MEM_SIZE: a store is in bounds (R18, R34). -/
theorem effect_keeps_memory (wf : Memory.wf s.mem = true) (below : Memory.below s.memSize.toNat s.mem = true) :
    Memory.wf t.mem = true ∧ Memory.below t.memSize.toNat t.mem = true := by
  cases effect with
  | stored a n v inside => exact ⟨Memory.writeLE_wf wf a n v, Memory.writeLE_below below a n v inside⟩
  | wroteReg | jumped | branched | nothing | wroteOut | exited => exact ⟨wf, below⟩

/-- An instruction keeps slot 0 of the register file (R12). -/
theorem effect_slot_zero : t.regs[0] = s.regs[0] := by
  cases effect with
  | wroteReg rd v => exact s.slot_zero_setReg rd v
  | jumped rd => exact s.slot_zero_setReg rd s.pc
  | branched | nothing | stored | wroteOut | exited => rfl

/-- An instruction keeps the program counter even: every target is (R17). -/
theorem effect_keeps_pcEven (pcEven : s.PcEven) : t.PcEven := by
  cases effect with
  | jumped rd target even => exact even pcEven
  | branched target even => exact even pcEven
  | wroteReg | nothing | stored | wroteOut | exited => exact pcEven

/-- An instruction neither counts nor presents the count: the run controller does (R87 to R89). -/
theorem effect_counters : t.instret = s.instret ∧ t.countOut = s.countOut := by
  cases effect <;> exact ⟨rfl, rfl⟩

end

/-! ### A step -/

/-- A Running state that meets the invariant presents no count. -/
theorem countOut_of_running {s : State} (presented : s.CountPresented) (running : s.status = .running) :
    s.countOut = none := by
  simpa [State.CountPresented, running] using presented

/-- The advance keeps the invariant: `pc` moves by 4. -/
theorem advance_inv {s : State} (inv : s.Inv) : s.advance.Inv := by
  obtain ⟨wf, below, slot, pcEven, presented⟩ := inv
  exact ⟨wf, below, slot, even_add pcEven (by decide), presented⟩

/-- Every step that answers a next state keeps the invariant, whatever the parameters: its instruction was decoded, so
it is well formed and its effect keeps each part; and `retire` presents the count exactly when the run is Finished. -/
theorem stepWith_inv {c : Config} {s t : State} (inv : s.Inv) (h : stepWith c s = .next t) : t.Inv := by
  obtain ⟨running, w, i, u, -, decoded, executed, rfl⟩ := stepWith_next h
  obtain ⟨wellFormed, -⟩ := encodeWith_of_decodeWith decoded
  have effect := execWith_effect wellFormed executed
  obtain ⟨wf, below, slot, pcEven, presented⟩ := advance_inv inv
  obtain ⟨wf', below'⟩ := effect_keeps_memory effect wf below
  have pcEven' : u.PcEven := effect_keeps_pcEven effect pcEven
  obtain ⟨-, countOut⟩ := effect_counters effect
  refine ⟨wf', below', (effect_slot_zero effect).trans slot, pcEven', ?_⟩
  rw [State.CountPresented, State.retire_countOut, countOut, countOut_of_running presented running]
  rfl

/-- Settles O55, by the lemma above. -/
theorem stepKeepsTheInvariantAtEveryParameterChoice : Obligations.StepKeepsTheInvariantAtEveryParameterChoice :=
  fun _ _ _ => stepWith_inv

/-- Settles O45: `step` is the step at the default parameters. -/
theorem stepKeepsTheInvariant : Obligations.StepKeepsTheInvariant :=
  fun s _ inv h => stepWith_inv inv ((stepWith_params s).trans h)

/-! ### Where a run begins and ends -/

/-- The boot state of a canonical memory inside MEM_SIZE meets the invariant (R23). -/
theorem boot_inv (c : Config) {mem : Memory} {memSize : Word} (wf : Memory.wf mem = true)
    (below : Memory.below memSize.toNat mem = true) : (State.boot c mem memSize).Inv :=
  ⟨wf, below, by simp [State.boot, bootRegs, spReg], (by decide : entryPc.getLsbD 0 = false), rfl⟩

/-- Settles O46: State.reset boots on the empty memory. -/
theorem resetMeetsTheInvariant : Obligations.ResetMeetsTheInvariant := ⟨boot_inv params rfl rfl, rfl⟩

/-- A loaded machine meets the invariant: its memory is the image, which ends below MEM_SIZE (R191). -/
theorem load_inv {blob : List Byte} {s : State} (h : load blob = .next s) : s.Inv := by
  rcases loadWith_cases params blob with ⟨-, e⟩ | ⟨-, small, e⟩ <;> cases e.symm.trans h
  refine boot_inv params (Memory.ofBytes_wf _) (Memory.ofBytes_below 0 _ ?_)
  rw [loadedSize_toNat small, loadedSize]
  omega

/-- Raising an error on a Running state keeps the invariant: no count was presented (R86). -/
theorem raised_inv {s : State} (r : ErrorReason) (inv : s.Inv) (running : s.status = .running) :
    (s.setStatus (.error r)).Inv := by
  obtain ⟨wf, below, slot, pcEven, presented⟩ := inv
  have notPresented := countOut_of_running presented running
  exact ⟨wf, below, slot, pcEven, notPresented⟩

/-- The state a failing step leaves meets the invariant (R86). -/
theorem step_error_inv {s a : State} {r : ErrorReason} (inv : s.Inv) (h : step s = .fault (.error r a)) : a.Inv := by
  obtain ⟨running, ⟨-, rfl⟩ | ⟨w, -, rfl, -⟩⟩ := step_error h
  · exact raised_inv r inv running
  · exact raised_inv r (advance_inv inv) running

/-! ### Runs -/

/-- What a step can answer: a next state or an error of a Running state, or nothing from an ended one (R21, R80). -/
theorem step_cases (s : State) :
    (∃ t, step s = .next t) ∨ (∃ r a, step s = .fault (.error r a)) ∨ s.status ≠ .running := by
  by_cases running : s.status = .running
  · exact (step_running running).imp_right .inl
  · exact .inr (.inr running)

/-- A run keeps the invariant, however it ends (R87). -/
theorem runFor_inv {s : State} (inv : s.Inv) (n : Nat) : (runFor n s).Inv := by
  induction n generalizing s with
  | zero => exact inv
  | succ n ih =>
    rcases step_cases s with ⟨t, h⟩ | ⟨r, a, h⟩ | ended
    · rw [runFor_next n h]
      exact ih (stepKeepsTheInvariant s t inv h)
    · rw [runFor_error n h]
      exact step_error_inv inv h
    · rwa [runFor_ended _ ended]

/-- Settles O47: the loaded machine meets the invariant, the run keeps it, and its last part is the clause on the
count. -/
theorem runsOfLoadedProgramsKeepTheInvariant : Obligations.RunsOfLoadedProgramsKeepTheInvariant := by
  intro blob s n h
  have inv := runFor_inv (load_inv h) n
  obtain ⟨-, -, -, -, presented⟩ := id inv
  exact ⟨inv, fun notFinished => presented.trans (if_neg notFinished)⟩

/-- A run of one step more that answers a next state takes that step first. -/
theorem core_run_succ {k : Nat} {s t : State} (h : core.run (k + 1) s = .next t) :
    ∃ u, step s = .next u ∧ core.run k u = .next t := by
  rcases step_cases s with ⟨u, e⟩ | ⟨r, a, e⟩ | ended
  · exact ⟨u, e, (core_run_next k e).symm.trans h⟩
  · cases (core_run_fault k e).symm.trans h
  · cases (core_run_fault k (step_ended ended)).symm.trans h

/-- A completed step is counted, and one that finishes presents the count (R87, R88). -/
theorem step_counts {s t : State} (h : step s = .next t) :
    t.instret = s.instret + 1 ∧ (t.status = .finished → t.countOut = some (s.instret + 1)) := by
  obtain ⟨-, w, i, u, -, decoded, executed, rfl⟩ := step_next h
  obtain ⟨wellFormed, -⟩ := encodeWith_of_decodeWith decoded
  obtain ⟨instret, -⟩ := effect_counters (exec_effect wellFormed executed)
  rw [State.advance_instret] at instret
  rw [State.retire_instret, State.retire_countOut, instret]
  exact ⟨rfl, fun finished => if_pos finished⟩

/-- Settles O42, by induction on the number of steps. -/
theorem counterCountsTheStepsTaken : Obligations.CounterCountsTheStepsTaken := by
  intro k
  induction k with
  | zero => intro s t h; cases h; exact ⟨rfl, fun pos => absurd pos (Nat.lt_irrefl 0)⟩
  | succ k ih =>
    intro s t h
    obtain ⟨u, first, rest⟩ := core_run_succ h
    obtain ⟨counted, presented⟩ := step_counts first
    obtain ⟨total, later⟩ := ih u t rest
    rw [counted, Nat.add_assoc, Nat.add_comm 1 k] at total later
    refine ⟨total, fun _ finished => ?_⟩
    cases k with
    | zero => cases rest; exact presented finished
    | succ k => exact later k.succ_pos finished

/-- Once a run has ended, one unit of fuel or more changes nothing (R89). -/
theorem runFor_add_of_ended {n : Nat} {s : State} (ended : (runFor n s).status ≠ .running) (k : Nat) :
    runFor (n + k) s = runFor n s := by
  induction n generalizing s with
  | zero => exact runFor_ended _ ended
  | succ n ih =>
    rw [Nat.succ_add]
    rcases step_cases s with ⟨t, h⟩ | ⟨r, a, h⟩ | stopped
    · rw [runFor_next n h] at ended ⊢
      rw [runFor_next _ h, ih ended]
    · rw [runFor_error _ h, runFor_error _ h]
    · rw [runFor_ended _ stopped, runFor_ended _ stopped]

/-- A run that is still Running has taken a step for each unit of fuel (R90). -/
theorem core_run_of_runFor_running {n : Nat} {s : State} (running : (runFor n s).status = .running) :
    core.run n s = .next (runFor n s) := by
  induction n generalizing s with
  | zero => rfl
  | succ n ih =>
    rcases step_cases s with ⟨t, h⟩ | ⟨r, a, h⟩ | ended
    · rw [runFor_next n h] at running ⊢
      rw [core_run_next n h, ih running]
    · rw [runFor_error n h] at running
      cases (step_error_status h).symm.trans running
    · rw [runFor_ended _ ended] at running
      exact absurd running ended

/-- Settles O44, by the two lemmas above. -/
theorem fuelIsNoEnd : Obligations.FuelIsNoEnd := by
  refine fun n s => ⟨fun ended m enough => ?_, core_run_of_runFor_running⟩
  obtain ⟨k, rfl⟩ := Nat.exists_eq_add_of_le enough
  exact runFor_add_of_ended ended k

end Sys2Proof.Slice0
end

section
/-! Proofs of the statements on the instructions that complete in every state: the upper immediates (spec/41 R95, R96),
the jumps (spec/42 R100, R101), the branches (spec/43 R105 to R111) and the ALU (spec/46, spec/47). The frame of each
shape of meaning is proved once; what is left per instruction is that the value or the target is the number the
statement names. -/

open Sys2Proof Sys2Proof.Machine

namespace Sys2Proof.Slice0

/-! ### The frames -/

section
variable {i : Instr} {s : State}

/-- An instruction that is one register write writes that register and leaves the rest alone. -/
theorem writesReg_of_setReg {rd : Reg} {v : Word} (h : exec i s = .next (s.setReg rd v)) : WritesReg i rd v s :=
  ⟨_, h, s.reg_setReg_self rd v, fun _ other => s.reg_setReg_ne v other, rfl, fun _ => rfl, rfl, rfl, rfl, rfl, rfl⟩

/-- The same for a value in another form. -/
theorem writesReg_of_eq {rd : Reg} {v v' : Word} (h : exec i s = .next (s.setReg rd v)) (value : v = v') :
    WritesReg i rd v' s := value ▸ writesReg_of_setReg h

/-- An instruction that links and jumps leaves the rest alone. -/
theorem linksAndJumps_of_eq {rd : Reg} {target target' : Word} (h : exec i s = linkAndJump rd target s)
    (value : target = target') : LinksAndJumps i rd target' s :=
  ⟨_, h, s.reg_setReg_self rd s.pc, fun _ other => s.reg_setReg_ne s.pc other, value, fun _ => rfl, rfl, rfl, rfl, rfl,
    rfl⟩

/-- A word plus a sign-extended immediate is the exact sum modulo 2^32 (R9). -/
theorem add_sext {n : Nat} (v : Word) (imm : BitVec n) : v + sext imm = BitVec.ofInt 32 (v.toNat + imm.toInt) := by
  rw [BitVec.ofInt_add, BitVec.ofInt_natCast, BitVec.ofNat_toNat, BitVec.setWidth_eq]
  rfl

/-- An instruction that is a conditional jump jumps exactly on its condition and leaves the rest alone (R105). -/
theorem branches_of_branchIf {p : Prop} [Decidable p] {imm : BitVec 13} (h : exec i s = branchIf (decide p) imm s) :
    Branches i p imm s := by
  by_cases taken : p
  · rw [branchIf, decide_eq_true taken, if_pos rfl] at h
    exact ⟨_, h, fun _ => add_sext s.pc imm, fun notTaken => absurd taken notTaken, fun _ => rfl, fun _ => rfl, rfl,
      rfl, rfl, rfl, rfl⟩
  · rw [branchIf, decide_eq_false taken, if_neg Bool.false_ne_true] at h
    exact ⟨_, h, fun isTaken => absurd isTaken taken, fun _ => rfl, fun _ => rfl, fun _ => rfl, rfl, rfl, rfl, rfl, rfl⟩

end

/-! ### The upper immediates -/

/-- imm_U as a number (R57). -/
theorem immU_eq_ofNat (imm20 : BitVec 20) : immU imm20 = BitVec.ofNat 32 (imm20.toNat * 4096) := by
  apply BitVec.eq_of_toNat_eq
  rw [immU, BitVec.toNat_append, BitVec.toNat_ofNat, BitVec.toNat_ofNat, Nat.zero_mod, Nat.or_zero, Nat.shiftLeft_eq]
  omega

/-- imm_U is the upper part of a U-format word. -/
theorem encodeU_and_upper (imm20 : BitVec 20) (rd : Reg) (op : BitVec 7) :
    encodeU imm20 rd op &&& 0xFFFFF000#32 = immU imm20 := by
  apply BitVec.eq_of_getLsbD_eq
  intro k hk
  simp only [encodeU, immU, BitVec.getLsbD_and, BitVec.getLsbD_append]
  interval_cases k <;> simp

/-- Settles O8: LUI writes imm_U, which is the upper part of its word, and 4096 times its field. -/
theorem luiWritesTheUpperImmediate : Obligations.LuiWritesTheUpperImmediate := fun _ rd imm20 =>
  ⟨writesReg_of_eq rfl (encodeU_and_upper imm20 rd params.opcLui).symm, writesReg_of_eq rfl (immU_eq_ofNat imm20)⟩

/-- A word plus imm_U, modulo 2^32. -/
theorem add_immU (v : Word) (imm20 : BitVec 20) : v + immU imm20 = BitVec.ofNat 32 (v.toNat + imm20.toNat * 4096) := by
  rw [BitVec.ofNat_add, BitVec.ofNat_toNat, BitVec.setWidth_eq, immU_eq_ofNat]

/-- `pc_fetch` from the `pc_next` of the dispatch stage (R82). -/
theorem pcFetch_of_advanced {s : State} {address : Word} (h : s.pc = address + 4#32) : pcFetch s = address := by
  rw [pcFetch, h, BitVec.add_sub_cancel]

/-- Settles O9: the default base is `pc_fetch`, which is `pc_next` minus 4; under the other base it is `pc_next`. -/
theorem auipcAddsItsOwnAddress : Obligations.AuipcAddsItsOwnAddress := by
  intro s address rd imm20 advanced
  refine ⟨writesReg_of_eq rfl ?_, rfl, by rw [auipcWith, auipcBaseAddr, add_immU]⟩
  exact (congrArg (· + immU imm20) (pcFetch_of_advanced advanced)).trans (add_immU address imm20)

/-! ### The jumps and the branches -/

/-- Settles O10: the target is `pc_next` plus the sign-extended immediate. -/
theorem jalLinksAndJumps : Obligations.JalLinksAndJumps := fun s _ imm =>
  linksAndJumps_of_eq rfl (add_sext s.pc imm)

/-- Bit 0 cleared is the even number below (R101). -/
theorem and_clear_bit_zero (v : Word) : v &&& 0xFFFFFFFE#32 = BitVec.ofNat 32 (2 * (v.toNat / 2)) := by
  have shifts : v &&& 0xFFFFFFFE#32 = (v >>> 1) <<< 1 := by
    apply BitVec.eq_of_getLsbD_eq
    intro k hk
    interval_cases k <;> simp
  rw [shifts]
  apply BitVec.eq_of_toNat_eq
  rw [BitVec.toNat_shiftLeft, BitVec.toNat_ushiftRight, BitVec.toNat_ofNat, Nat.shiftLeft_eq, Nat.shiftRight_eq_div_pow,
    Nat.mul_comm]

/-- Settles O11: the target is computed before the link is written. -/
theorem jalrLinksAndJumps : Obligations.JalrLinksAndJumps := fun s _ rs1 imm =>
  linksAndJumps_of_eq rfl (by rw [indirectTarget, add_sext, and_clear_bit_zero])

/-- Settles O12: each branch is `branchIf` on its condition; BNE, BGE and BGEU negate another's. -/
theorem branchesDecideAndJump : Obligations.BranchesDecideAndJump := by
  intro s rs1 rs2 imm
  refine ⟨branches_of_branchIf rfl, branches_of_branchIf ?_, branches_of_branchIf rfl, branches_of_branchIf ?_,
    branches_of_branchIf rfl, branches_of_branchIf ?_⟩
  · simp [exec, execBne, equalBits]
  · simp [exec, execBge, ltSigned, ← decide_not]
  · simp [exec, execBgeu, ltUnsigned, ← decide_not]

/-! ### Sums, differences and compares -/

/-- Settles O20: words add and subtract as their signed numbers do, modulo 2^32. -/
theorem addAndSubtractWrap : Obligations.AddAndSubtractWrap := by
  intro s rd rs1 rs2 imm
  refine ⟨writesReg_of_eq rfl ?_, writesReg_of_eq rfl ?_, writesReg_of_eq rfl ?_⟩
  · rw [BitVec.ofInt_add, BitVec.ofInt_toInt]; rfl
  · rw [BitVec.ofInt_add, BitVec.ofInt_toInt, BitVec.ofInt_toInt]
  · rw [Int.sub_eq_add_neg, BitVec.ofInt_add, BitVec.ofInt_neg, BitVec.ofInt_toInt, BitVec.ofInt_toInt]
    exact BitVec.sub_eq_add_neg _ _

/-- A sign-extended 12-bit immediate as a signed number is the immediate (R53). -/
theorem toInt_sext_imm (imm : BitVec 12) : (sext imm).toInt = imm.toInt := BitVec.toInt_signExtend_of_le (by decide)

/-- A sign-extended immediate as an unsigned number. -/
theorem toNat_sext {n : Nat} (imm : BitVec n) : ((sext imm).toNat : Int) = imm.toInt % 2 ^ 32 := by
  rw [sext, BitVec.signExtend, BitVec.toNat_ofInt]
  omega

/-- What a compare writes (R132, D23). -/
theorem boolWord_decide (p : Prop) [Decidable p] : boolWord (decide p) = if p then 1#32 else 0#32 := by
  simp [boolWord]

/-- Settles O21: sign extension keeps an immediate's signed number, and gives SLTIU its unsigned one. -/
theorem comparesWriteOneOrZero : Obligations.ComparesWriteOneOrZero := by
  intro s rd rs1 rs2 imm
  refine ⟨writesReg_of_eq rfl ?_, writesReg_of_eq rfl ?_, writesReg_of_eq rfl (boolWord_decide _),
    writesReg_of_eq rfl (boolWord_decide _)⟩
  · rw [ltSigned, boolWord_decide, toInt_sext_imm]
  · rw [ltUnsigned, boolWord_decide]
    exact if_congr (by rw [← toNat_sext, Int.ofNat_lt]) rfl rfl

/-! ### Bitwise instructions -/

/-- The bits of a sign-extended immediate: those above bit 11 are its bit 11 (R53). -/
theorem getLsbD_sext_imm (imm : BitVec 12) {k : Nat} (hk : k < 32) :
    (sext imm).getLsbD k = imm.getLsbD (min k 11) := by
  rw [sext, BitVec.getLsbD_signExtend, BitVec.msb_eq_getLsbD_last]
  by_cases field : k < 12
  · simp [hk, field, Nat.min_eq_left (Nat.le_of_lt_succ field)]
  · simp [hk, field, Nat.min_eq_right (Nat.le_of_not_lt fun lt => field (Nat.lt_succ_of_lt lt))]

/-- Settles O22: the words' own bit laws, and the bits of a sign-extended immediate. -/
theorem bitwiseInstructionsWorkBitByBit : Obligations.BitwiseInstructionsWorkBitByBit := by
  intro s rd rs1 rs2 imm
  refine ⟨⟨_, writesReg_of_setReg rfl, fun k hk => ?_⟩, ⟨_, writesReg_of_setReg rfl, fun k hk => ?_⟩,
    ⟨_, writesReg_of_setReg rfl, fun k hk => ?_⟩, ⟨_, writesReg_of_setReg rfl, fun k _ => BitVec.getLsbD_xor⟩,
    ⟨_, writesReg_of_setReg rfl, fun k _ => BitVec.getLsbD_or⟩,
    ⟨_, writesReg_of_setReg rfl, fun k _ => BitVec.getLsbD_and⟩⟩
  · rw [BitVec.getLsbD_xor, getLsbD_sext_imm imm hk]
  · rw [BitVec.getLsbD_or, getLsbD_sext_imm imm hk]
  · rw [BitVec.getLsbD_and, getLsbD_sext_imm imm hk]

/-! ### Shifts -/

section
variable (v : Word) (n : BitVec 5)

/-- A left shift multiplies modulo 2^32. -/
theorem shiftLeft_eq_ofNat : shiftLeft v n = BitVec.ofNat 32 (v.toNat * 2 ^ n.toNat) := by
  apply BitVec.eq_of_toNat_eq
  rw [shiftLeft, BitVec.toNat_shiftLeft, BitVec.toNat_ofNat, Nat.shiftLeft_eq]

/-- A logical right shift divides the unsigned number. -/
theorem shiftRightLogical_eq_ofNat : shiftRightLogical v n = BitVec.ofNat 32 (v.toNat / 2 ^ n.toNat) := by
  apply BitVec.eq_of_toNat_eq
  rw [shiftRightLogical, BitVec.toNat_ushiftRight, BitVec.toNat_ofNat, Nat.shiftRight_eq_div_pow,
    Nat.mod_eq_of_lt (lt_of_le_of_lt (Nat.div_le_self _ _) v.isLt)]

/-- An arithmetic right shift divides the signed number, rounding down. -/
theorem shiftRightArith_eq_ofInt : shiftRightArith v n = BitVec.ofInt 32 (Int.fdiv v.toInt (2 ^ n.toNat)) := by
  rw [shiftRightArith, BitVec.sshiftRight, Int.shiftRight_eq_div_pow, Int.fdiv_eq_ediv_of_nonneg _ (by positivity)]
  norm_cast

/-- The amount of a register shift is the register modulo 32 (D13). -/
theorem toNat_shiftAmount : (shiftAmount v).toNat = v.toNat % 32 := by
  rw [shiftAmount, BitVec.extractLsb'_toNat, Nat.shiftRight_zero]

end

/-- Settles O23: the three shifts as numbers, at the amount in the instruction. -/
theorem immediateShiftsScaleByPowersOfTwo : Obligations.ImmediateShiftsScaleByPowersOfTwo := fun s _ rs1 shamt =>
  ⟨writesReg_of_eq rfl (shiftLeft_eq_ofNat (s.reg rs1) shamt),
    writesReg_of_eq rfl (shiftRightLogical_eq_ofNat (s.reg rs1) shamt),
    writesReg_of_eq rfl (shiftRightArith_eq_ofInt (s.reg rs1) shamt)⟩

/-- Settles O24: the same three shifts, at the amount in the second register. -/
theorem registerShiftsUseTheLowFiveBits : Obligations.RegisterShiftsUseTheLowFiveBits := by
  intro s rd rs1 rs2
  rw [← toNat_shiftAmount (s.reg rs2)]
  exact ⟨writesReg_of_eq rfl (shiftLeft_eq_ofNat _ _), writesReg_of_eq rfl (shiftRightLogical_eq_ofNat _ _),
    writesReg_of_eq rfl (shiftRightArith_eq_ofInt _ _)⟩

end Sys2Proof.Slice0
end

section
/-! Proofs of the statements on memory (spec/20_memory.md, spec/44_loads.md, spec/45_stores.md): the address of an
access, a load and a store in and out of bounds, what is read after a store, and the fetch (spec/40 R81). -/

open Sys2Proof Sys2Proof.Machine

namespace Sys2Proof.Slice0

/-- Settles O13: the address is the register plus the sign-extended immediate, as a 32-bit sum. -/
theorem effectiveAddressWraps : Obligations.EffectiveAddressWraps := by
  intro s rs1 imm
  rw [effAddr, add_sext, BitVec.toNat_ofInt]
  omega

/-! ### Little-endian reads, byte by byte -/

section
variable (m : Memory) (a : Nat)

theorem readLE_one : Memory.readLE m a 1 = Memory.read m a := by
  apply BitVec.eq_of_toNat_eq
  exact BitVec.toNat_append (0#0) (Memory.read m a) |>.trans (by simp)

theorem readLE_two : Memory.readLE m a 2 = Memory.read m (a + 1) ++ Memory.read m a :=
  congrArg (fun top : Byte => top ++ Memory.read m a) (readLE_one m (a + 1))

theorem readLE_four : Memory.readLE m a 4
    = Memory.read m (a + 3) ++ Memory.read m (a + 2) ++ Memory.read m (a + 1) ++ Memory.read m a :=
  congrArg (fun top : Byte => top ++ Memory.read m (a + 2) ++ Memory.read m (a + 1) ++ Memory.read m a)
    (readLE_one m (a + 3))

end

/-! ### Loads -/

section
variable {n : Nat} {ext : BitVec (8 * n) → Word} {rd rs1 : Reg} {imm : BitVec 12} {s : State}

/-- A load in bounds writes the extended value at its address (R115). -/
theorem loadOp_of_inBounds (inside : (effAddr s rs1 imm).toNat + n ≤ s.memSize.toNat) :
    loadOp n ext rd rs1 imm s = .next (s.setReg rd (ext (Memory.readLE s.mem (effAddr s rs1 imm).toNat n))) := by
  rw [loadOp, memRead_ok inside]

/-- A load out of bounds raises, whatever its destination (R33). -/
theorem loadOp_of_outOfBounds (past : s.memSize.toNat < (effAddr s rs1 imm).toNat + n) :
    loadOp n ext rd rs1 imm s = raise .dataBounds s := by
  rw [loadOp, memRead_error (Nat.not_le_of_lt past)]

/-- A load in bounds writes its destination alone. -/
theorem writesReg_of_loadOp {i : Instr} {v : Word} (h : exec i s = loadOp n ext rd rs1 imm s)
    (inside : (effAddr s rs1 imm).toNat + n ≤ s.memSize.toNat)
    (value : ext (Memory.readLE s.mem (effAddr s rs1 imm).toNat n) = v) : WritesReg i rd v s :=
  writesReg_of_eq (h.trans (loadOp_of_inBounds inside)) value

end

/-- Sign extension keeps the signed number (R9). -/
theorem sext_eq_ofInt {n : Nat} (v : BitVec n) : sext v = BitVec.ofInt 32 v.toInt := rfl

/-- Zero extension keeps the unsigned number (R9). -/
theorem zext_eq_ofNat {n : Nat} (v : BitVec n) : zext v = BitVec.ofNat 32 v.toNat := (BitVec.ofNat_toNat 32 v).symm

/-- Two bytes as an unsigned number, the upper one weighing 256. -/
theorem toNat_append_bytes (b1 b0 : Byte) : (b1 ++ b0).toNat = 256 * b1.toNat + b0.toNat := by
  rw [BitVec.toNat_append, ← Nat.shiftLeft_add_eq_or_of_lt b0.isLt, Nat.shiftLeft_eq, Nat.mul_comm]

/-- Settles O14: each load is `loadOp` at its width and extension; the bytes at its address make up the value. -/
theorem loadsReadAndExtend : Obligations.LoadsReadAndExtend := by
  refine fun s rd rs1 imm => ⟨fun inside => ⟨?lb, ?lbu⟩, fun inside => ⟨?lh, ?lhu⟩, fun inside => ?lw⟩
  case lb => exact writesReg_of_loadOp rfl inside (congrArg sext (readLE_one s.mem _))
  case lbu =>
    exact writesReg_of_loadOp rfl inside ((congrArg zext (readLE_one s.mem _)).trans (zext_eq_ofNat _))
  case lh =>
    refine writesReg_of_loadOp rfl inside ((congrArg sext (readLE_two s.mem _)).trans ?_)
    rw [sext_eq_ofInt, toInt_append_of_pos _ _ (by decide)]
    rfl
  case lhu =>
    refine writesReg_of_loadOp rfl inside ((congrArg zext (readLE_two s.mem _)).trans ?_)
    rw [zext_eq_ofNat, toNat_append_bytes]
    rfl
  case lw => exact writesReg_of_loadOp rfl inside ((BitVec.setWidth_eq _).trans (readLE_four s.mem _))

/-! ### Stores -/

section
variable {n : Nat} {rs2 rs1 : Reg} {imm : BitVec 12} {s : State}

/-- A store in bounds writes the low bytes of its register at its address (R125). -/
theorem storeOp_of_inBounds (inside : (effAddr s rs1 imm).toNat + n ≤ s.memSize.toNat) :
    storeOp n rs2 rs1 imm s = .next (s.setMem (Memory.writeLE s.mem (effAddr s rs1 imm).toNat n (s.reg rs2))) := by
  rw [storeOp, memWrite_ok _ inside]

/-- A store out of bounds raises (R34, D18). -/
theorem storeOp_of_outOfBounds (past : s.memSize.toNat < (effAddr s rs1 imm).toNat + n) :
    storeOp n rs2 rs1 imm s = raise .dataBounds s := by
  rw [storeOp, memWrite_error _ (Nat.not_le_of_lt past)]

/-- A store in bounds changes its bytes alone. -/
theorem storesBytes_of_storeOp {i : Instr} (wf : Memory.wf s.mem = true) (h : exec i s = storeOp n rs2 rs1 imm s)
    (inside : (effAddr s rs1 imm).toNat + n ≤ s.memSize.toNat) :
    StoresBytes i (effAddr s rs1 imm).toNat n (s.reg rs2) s := by
  refine ⟨_, h.trans (storeOp_of_inBounds inside), fun k hk => ?_, fun b outside => ?_, fun _ => rfl, rfl, rfl, rfl,
    rfl, rfl, rfl⟩
  · rw [State.byte_writeLE wf, if_pos (by omega), Nat.add_sub_cancel_left]
  · rw [State.byte_writeLE wf, if_neg outside]

end

/-- Settles O16: each store is `storeOp` at its width. -/
theorem storesWriteTheirBytes : Obligations.StoresWriteTheirBytes := fun _ _ _ _ wf =>
  ⟨storesBytes_of_storeOp wf rfl, storesBytes_of_storeOp wf rfl, storesBytes_of_storeOp wf rfl⟩

/-- Settles O15: an instruction with a load or a store range is `loadOp` or `storeOp` there, which check first. -/
theorem accessOutOfBoundsIsFatal : Obligations.AccessOutOfBoundsIsFatal := by
  rintro s i a n (load | store) past <;> cases i
  case inl.lb | inl.lh | inl.lw | inl.lbu | inl.lhu => cases load; exact loadOp_of_outOfBounds past
  case inr.sb | inr.sh | inr.sw => cases store; exact storeOp_of_outOfBounds past
  all_goals contradiction

/-! ### Reads after a store -/

/-- A read inside what a little-endian write wrote sees the bytes of the value from there (R31). -/
theorem readLE_inside_writeLE {m : Memory} (wf : Memory.wf m = true) (a n k len : Nat) (v : Word)
    (inside : k + len ≤ n) :
    Memory.readLE (Memory.writeLE m a n v) (a + k) len = v.extractLsb' (8 * k) (8 * len) := by
  apply BitVec.eq_of_getLsbD_eq
  intro j hj
  rw [Memory.readLE_getLsbD _ _ _ _ hj, Memory.read_writeLE wf, if_pos (by omega), BitVec.getLsbD_extractLsb',
    BitVec.getLsbD_extractLsb', decide_eq_true hj, decide_eq_true (Nat.mod_lt j (by decide))]
  congr 2
  omega

/-- A load of the width just stored, at the same address, reads the low bits of the stored register (R40). -/
theorem loadOp_after_storeOp {n : Nat} {ext : BitVec (8 * n) → Word} {rd rs2 rs1 : Reg} {imm : BitVec 12} {s t : State}
    {v : Word} (wf : Memory.wf s.mem = true) (narrow : 8 * n ≤ 32) (h : storeOp n rs2 rs1 imm s = .next t)
    (value : ext ((s.reg rs2).setWidth (8 * n)) = v) : loadOp n ext rd rs1 imm t = .next (t.setReg rd v) := by
  obtain ⟨inside, rfl⟩ := storeOp_next h
  have read := Memory.readLE_writeLE wf (effAddr s rs1 imm).toNat n (s.reg rs2) narrow
  rw [← value, ← read]
  exact loadOp_of_inBounds inside

/-- Zero extension of the low `n` bits is their mask (R40). -/
theorem zext_setWidth_eq_and {n : Nat} (v mask : Word) (ones : mask = (BitVec.allOnes n).setWidth 32) :
    zext (v.setWidth n) = v &&& mask := by
  subst ones
  apply BitVec.eq_of_getLsbD_eq
  intro k hk
  simp [zext, hk, Bool.and_comm]

/-- Sign extension of the low `n` bits is that of the field (R40). -/
theorem sext_setWidth_eq_signExtend {n : Nat} (narrow : n ≤ 32) (v : Word) :
    sext (v.setWidth n) = (v.extractLsb' 0 n).signExtend 32 := by
  rw [sext, BitVec.setWidth_eq_extractLsb' narrow]

/-- Settles O17: the load reads the low bits of the stored register, which it extends. -/
theorem loadAfterStoreReturnsTheStoredBits : Obligations.LoadAfterStoreReturnsTheStoredBits := by
  refine fun s t rs2 rs1 rd imm wf => ⟨fun stored => ?lw, fun stored => ⟨?lhu, ?lh⟩, fun stored => ⟨?lbu, ?lb⟩⟩
  case lw => exact loadOp_after_storeOp wf (by decide) stored (by simp [zext])
  case lhu => exact loadOp_after_storeOp wf (by decide) stored (zext_setWidth_eq_and _ _ (by decide))
  case lh => exact loadOp_after_storeOp wf (by decide) stored (sext_setWidth_eq_signExtend (by decide) _)
  case lbu => exact loadOp_after_storeOp wf (by decide) stored (zext_setWidth_eq_and _ _ (by decide))
  case lb => exact loadOp_after_storeOp wf (by decide) stored (sext_setWidth_eq_signExtend (by decide) _)

/-- MemWrite that completes was in bounds (R34). -/
theorem memWrite_next {s t : State} {addr : Word} {n : Nat} {v : Word} (h : memWrite s addr n v = .ok t) :
    addr.toNat + n ≤ s.memSize.toNat ∧ t = s.setMem (Memory.writeLE s.mem addr.toNat n v) := by
  by_cases inside : addr.toNat + n ≤ s.memSize.toNat
  · cases (memWrite_ok v inside).symm.trans h
    exact ⟨inside, rfl⟩
  · cases (memWrite_error v inside).symm.trans h

/-- MemRead inside what MemWrite just wrote sees the value's bytes from there (R31). -/
theorem memRead_inside_memWrite {s t : State} {a v : Word} {n : Nat} (wf : Memory.wf s.mem = true)
    (h : memWrite s a n v = .ok t) (k len : Nat) (nonempty : 0 < len) (inside : k + len ≤ n) :
    memRead t (a + BitVec.ofNat 32 k) len = .ok (v.extractLsb' (8 * k) (8 * len)) := by
  obtain ⟨written, rfl⟩ := memWrite_next h
  have size := s.memSize.isLt
  have address : (a + BitVec.ofNat 32 k).toNat = a.toNat + k := by
    rw [BitVec.toNat_add, BitVec.toNat_ofNat]
    omega
  rw [memRead_ok (by rw [address, State.setMem_memSize]; omega), address, State.setMem_mem,
    readLE_inside_writeLE wf _ n k len v inside]

/-- Settles O18: reads of one and of two bytes inside the four written. -/
theorem narrowReadsSeeAWideStore : Obligations.NarrowReadsSeeAWideStore := fun _ _ _ _ wf h =>
  ⟨fun k inside => memRead_inside_memWrite wf h k 1 (by decide) (by omega),
    fun k inside => memRead_inside_memWrite wf h k 2 (by decide) (by omega)⟩

/-! ### The fetch -/

/-- Settles O19: a fetch is an aligned read of four bytes. -/
theorem fetchSeesAStoredWord : Obligations.FetchSeesAStoredWord := by
  intro s t rs2 rs1 imm wf h aligned
  obtain ⟨inside, rfl⟩ := storeOp_next h
  refine (fetch_ok aligned inside).trans (congrArg Except.ok ?_)
  exact (Memory.readLE_writeLE wf _ 4 _ (by decide)).trans (BitVec.setWidth_eq _)

/-- Settles O32: the three answers of a fetch, the first as bytes. -/
theorem fetchReadsAnAlignedWord : Obligations.FetchReadsAnAlignedWord := fun s =>
  ⟨fun aligned inside => (fetch_ok aligned inside).trans (congrArg Except.ok (readLE_four s.mem _)),
    fetch_misaligned, fun aligned past => fetch_outOfBounds aligned (Nat.not_le_of_lt past)⟩

end Sys2Proof.Slice0
end

section
/-! Proofs of the statements on the loader and reset (spec/70_reset_and_hazards.md section 1, spec/10_state.md R23):
which blobs load, and what the boot state holds. -/

open Sys2Proof Sys2Proof.Machine

namespace Sys2Proof.Slice0

/-- Settles O49: the loader's two checks are its only refusals. -/
theorem loaderRefusesOnlyTheseBlobs : Obligations.LoaderRefusesOnlyTheseBlobs := by
  refine fun blob => ⟨fun refused => ?_, fun long small => ⟨_, load_of_fits long small⟩⟩
  rcases loadWith_cases params blob with ⟨-, e⟩ | ⟨long, small, -⟩
  · exact e
  · rw [trailerLen] at long
    omega

/-- Every register of a boot state: 0, MEM_SIZE in x2, RESET_REG_VALUE elsewhere (R11, R23). -/
theorem reg_boot (c : Config) (mem : Memory) (memSize : Word) (r : Reg) :
    (State.boot c mem memSize).reg r = if r = 0#5 then 0#32 else if r = 2#5 then memSize else c.resetRegValue := by
  rw [State.reg, readReg]
  by_cases zero : r = 0#5
  · rw [if_pos zero, if_pos zero]
  · rw [if_neg zero, if_neg zero]
    have notSlotZero : (0 : Nat) ≠ r.toNat := fun e => zero (BitVec.eq_of_toNat_eq e.symm)
    simp only [State.boot, bootRegs, spReg, Vector.getElem_set, Vector.getElem_replicate, notSlotZero, if_false]
    refine if_congr ?_ rfl rfl
    rw [← BitVec.toNat_inj, eq_comm]

/-- Settles O50: a loaded machine is a boot state at the defaults. -/
theorem loadedMachineBeginsAsReset : Obligations.LoadedMachineBeginsAsReset := by
  intro blob s h
  rw [load_next h]
  refine ⟨rfl, reg_boot _ _ _ _, fun r notSp => ?_, rfl, rfl, rfl, rfl⟩
  rw [reg_boot, if_neg notSp]
  exact ite_self _

/-- Settles O56: what the parameters choose of a boot state is the reset registers. -/
theorem resetRegistersHoldTheParameter : Obligations.ResetRegistersHoldTheParameter := by
  intro c blob s h
  rcases loadWith_cases c blob with ⟨-, e⟩ | ⟨long, small, e⟩ <;> cases e.symm.trans h
  refine ⟨rfl, reg_boot _ _ _ _, fun r notZero notSp => ?_, _, load_of_fits long small, rfl⟩
  rw [reg_boot, if_neg notZero, if_neg notSp]

/-- Settles O51: the blob has no image and a trailer of 16 MiB, and an unlisted word is the unknown word 0. -/
theorem resetIsTheEmptyImage : Obligations.ResetIsTheEmptyImage := by
  have word : fetch State.reset = .ok 0#32 := by rfl
  have unknown : decode 0#32 = .error .unknownOpcode := by decide
  exact ⟨rfl, by decide, fun _ => rfl, _, step_of_reject rfl word unknown, rfl, rfl⟩

end Sys2Proof.Slice0
end

section
/-! Proofs of the statements on the environment call (spec/48_ecall_syscall.md R160 to R166) and on the parameters of
R6: the dispatcher's four branches, each said once for every parameter choice. -/

open Sys2Proof Sys2Proof.Machine

namespace Sys2Proof.Slice0

/-! ### The dispatcher's branches -/

section
variable {c : Config} {s : State}

/-- The sentinel exits (R162). -/
theorem ecallWith_of_exit (exit : s.reg c.syscallNumReg = c.exitSentinel) :
    ecallWith c s = .next (s.setStatus .finished) := by
  rw [ecallWith, if_pos exit, exitCall]

variable (notExit : s.reg c.syscallNumReg ≠ c.exitSentinel) (write : s.reg c.syscallNumReg = sysWriteNum)
include notExit write

/-- Number 1 appends the buffer when it is in bounds (R163, R36). -/
theorem ecallWith_of_write_inside
    (inside : (s.reg c.writePtrReg).toNat + (s.reg c.writeLenReg).toNat ≤ s.memSize.toNat) :
    ecallWith c s = .next (s.emit ((List.range (s.reg c.writeLenReg).toNat).map
      fun k => s.byte ((s.reg c.writePtrReg).toNat + k))) := by
  rw [ecallWith, if_neg notExit, if_pos write, writeCall, readBuffer_ok inside]

/-- Number 1 raises when the buffer is not (R163, R36). -/
theorem ecallWith_of_write_past
    (past : s.memSize.toNat < (s.reg c.writePtrReg).toNat + (s.reg c.writeLenReg).toNat) :
    ecallWith c s = raise .syscallBounds s := by
  rw [ecallWith, if_neg notExit, if_pos write, writeCall, readBuffer_error (Nat.not_le_of_lt past)]

end

/-! ### ECALL at the defaults -/

/-- Settles O25: the dispatcher's first branch at the defaults. -/
theorem ecallExits : Obligations.EcallExits := fun _ exit =>
  ⟨_, ecallWith_of_exit (c := params) exit, rfl, fun _ => rfl, fun _ => rfl, rfl, rfl, rfl, rfl, rfl⟩

/-- Number 1 is not the default sentinel (D5). -/
theorem write_ne_exit {s : State} (write : s.reg 17#5 = 1#32) :
    s.reg params.syscallNumReg ≠ params.exitSentinel := by
  rw [show s.reg params.syscallNumReg = 1#32 from write]
  decide

/-- Settles O26: what is appended to the output leaves what stood there, and is the buffer byte by byte. -/
theorem ecallWritesTheBuffer : Obligations.EcallWritesTheBuffer := by
  intro s write inside
  refine ⟨_, ecallWith_of_write_inside (c := params) (write_ne_exit write) write inside, ?_, fun k hk => ?_,
    fun k hk => ?_, fun _ => rfl, fun _ => rfl, rfl, rfl, rfl, rfl, rfl⟩
  · rw [State.emit_out, List.length_append, List.length_map, List.length_range]
    rfl
  · rw [State.emit_out, List.getElem?_append_left hk]
  · have kept : k < (s.reg params.writeLenReg).toNat := hk
    rw [State.emit_out, List.getElem?_append_right (Nat.le_add_right _ _), Nat.add_sub_cancel_left, List.getElem?_map,
      List.getElem?_range kept]
    rfl

/-- Settles O27: the dispatcher's third branch at the defaults. -/
theorem ecallWriteOutOfBoundsIsFatal : Obligations.EcallWriteOutOfBoundsIsFatal := fun _ write past =>
  ecallWith_of_write_past (c := params) (write_ne_exit write) write past

/-- Settles O30: exit sets the run status, write appends to the output, and an error sets the run status. -/
theorem ecallLeavesTheRestAlone : Obligations.EcallLeavesTheRestAlone := by
  intro c s t outcome
  have raised (r : ErrorReason) (h : ecallWith c s = raise r s) : t = s.setStatus (.error r) := by
    rcases outcome with next | ⟨r', error⟩
    · cases h.symm.trans next
    · cases h.symm.trans error; rfl
  have completed {u : State} (h : ecallWith c s = .next u) : t = u := by
    rcases outcome with next | ⟨r, error⟩
    · cases h.symm.trans next; rfl
    · cases h.symm.trans error
  rcases ecallWith_cases c s with ⟨-, e⟩ | ⟨-, write, bs, -, e⟩ | ⟨-, -, -, e⟩ | ⟨-, -, e⟩
  · rw [completed e]
    exact ⟨fun _ => rfl, rfl, rfl, rfl, rfl, rfl, ⟨[], (List.append_nil _).symm⟩, fun changed => absurd rfl changed⟩
  · rw [completed e]
    exact ⟨fun _ => rfl, rfl, rfl, rfl, rfl, rfl, ⟨bs, rfl⟩, fun _ => write⟩
  all_goals
    rw [raised _ e]
    exact ⟨fun _ => rfl, rfl, rfl, rfl, rfl, rfl, ⟨[], (List.append_nil _).symm⟩, fun changed => absurd rfl changed⟩

/-- A step on the ECALL word with number 0 ends with `Error(Syscall)` (R164). -/
theorem step_ecall_number_zero {s : State} (running : s.status = .running) (word : fetch s = .ok 0x00000073#32)
    (zero : s.reg 17#5 = 0#32) : step s = raise .syscall s.advance := by
  have number : s.advance.reg params.syscallNumReg = 0#32 := zero
  have unknown : exec .ecall s.advance = raise .syscall s.advance :=
    ecallWith_of_unknown (by rw [number]; decide) (by rw [number]; decide)
  rw [step_of_decode running word (by decide : decode 0x00000073#32 = .ok .ecall), unknown]
  rfl

/-- Settles O29: x17 of a boot state at the defaults is 0. -/
theorem ecallStraightAfterResetIsFatal : Obligations.EcallStraightAfterResetIsFatal := by
  refine ⟨fun blob s loaded word => ?_, _, step_ecall_number_zero rfl ?_ (reg_boot _ _ _ _), rfl, rfl⟩
  · cases load_next loaded
    exact ⟨step_ecall_number_zero rfl word (reg_boot _ _ _ _), rfl⟩
  · refine (fetch_ok (by decide) (by decide)).trans (congrArg Except.ok ?_)
    exact (Memory.readLE_writeLE (m := []) rfl 8 4 0x00000073#32 (by decide)).trans (BitVec.setWidth_eq _)

/-! ### The parameters -/

/-- Settles O52: the forms with parameters at the defaults, from the decoder to the run of a blob. -/
theorem machineAtTheDefaultsIsTheModel : Obligations.MachineAtTheDefaultsIsTheModel := by
  refine ⟨fun _ => rfl, execWith_params, stepWith_params, runForWith_params, fun fuel blob => ?_⟩
  rw [runBlobWith, runBlob, load]
  cases loadWith params blob with
  | next s => exact congrArg Host.Outcome.next (runForWith_params fuel s)
  | fault | refused => rfl

/-- Settles O54: AUIPC adds to its base, ECALL is the dispatcher, and every other arm of `execWith` is `exec`. -/
theorem parametersReachAuipcAndEcallAlone : Obligations.ParametersReachAuipcAndEcallAlone := by
  refine fun c s => ⟨fun address rd imm20 advanced => ⟨fun base => ?_, fun base => ?_⟩, ecallWith_of_exit,
    ecallWith_of_write_inside, ecallWith_of_write_past, ecallWith_of_unknown, fun i notEcall notAuipc => ?_⟩
  · rw [execWith, auipcWith, base, auipcBaseAddr, pcFetch_of_advanced advanced, add_immU]
  · rw [execWith, auipcWith, base, auipcBaseAddr, advanced, immU_eq_ofNat, BitVec.ofNat_add (address.toNat + 4),
      BitVec.ofNat_add address.toNat, BitVec.ofNat_toNat, BitVec.setWidth_eq]
  · cases i
    case auipc rd imm20 => exact absurd rfl (notAuipc rd imm20)
    case ecall => exact absurd rfl notEcall
    all_goals rfl

end Sys2Proof.Slice0
end

section
/-! Proofs of the statements on a step (spec/40_step_cycle.md R80 to R88, spec/60_exceptions.md): the cycle under any
parameters, what an error of an instruction says, and what a completed step has changed. -/

open Sys2Proof Sys2Proof.Machine

namespace Sys2Proof.Slice0

/-! ### The cycle -/

/-- The cycle over any decoder parameters and any dispatch is the one R80 describes. -/
theorem stepCycle_cycleWith (c : Config) (ex : Instr → State → Result) :
    StepCycle (decodeWith c) ex (cycleWith c ex) := by
  refine fun s running => ⟨fun w word => ⟨fun i decoded => ⟨fun u next => ?_, fun r a error => ?_⟩,
    fun x unknown => ?_⟩, fun r failed => ?_⟩
  · rw [cycleWith_of_decode running word decoded]
    exact congrArg retireResult next
  · rw [cycleWith_of_decode running word decoded]
    exact congrArg retireResult error
  · exact cycleWith_of_reject running word unknown
  · exact cycleWith_of_fetch_error running failed

/-- Settles O53: `stepWith` is the cycle over `execWith`. -/
theorem stepAtEveryParameterChoice : Obligations.StepAtEveryParameterChoice := fun c =>
  stepCycle_cycleWith c (execWith c)

/-- Settles O31: `step` is the cycle at the defaults over `exec`. -/
theorem stepRunsTheDecodedInstruction : Obligations.StepRunsTheDecodedInstruction := stepCycle_cycleWith params exec

/-- Settles O43: the exit call completes on the advanced state, and is counted and presented. -/
theorem singleExitCallCountsOne : Obligations.SingleExitCallCountsOne := by
  intro s running start number word
  have exit : exec .ecall s.advance = .next (s.advance.setStatus .finished) := ecallWith_of_exit (c := params) number
  refine ⟨_, (step_of_decode running word rfl).trans (congrArg retireResult exit), rfl, ?_, ?_, rfl, fun _ => rfl, rfl,
    rfl⟩
  · rw [State.retire_instret, State.setStatus_instret, State.advance_instret, start]
  · rw [State.retire_countOut, State.setStatus_status, if_pos rfl, State.setStatus_instret, State.advance_instret,
      start]

/-! ### Errors -/

/-- A failed fetch has the cause its error names (R81). -/
theorem fetch_error_cause {s : State} {r : ErrorReason} (h : fetch s = .error r) :
    (r = .fetchMisaligned ∧ s.pc.toNat % 4 ≠ 0)
      ∨ (r = .fetchBounds ∧ s.pc.toNat % 4 = 0 ∧ s.memSize.toNat < s.pc.toNat + 4) := by
  by_cases aligned : s.pc.toNat % 4 = 0
  · by_cases inside : s.pc.toNat + 4 ≤ s.memSize.toNat
    · cases (fetch_ok aligned inside).symm.trans h
    · cases (fetch_outOfBounds aligned inside).symm.trans h
      exact .inr ⟨rfl, aligned, Nat.lt_of_not_le inside⟩
  · cases (fetch_misaligned aligned).symm.trans h
    exact .inl ⟨rfl, aligned⟩

/-- The cause of an error that an instruction raises: an access out of bounds, or one of ECALL's two errors (R171). -/
inductive ExecCause (s : State) : Instr → ErrorReason → Prop where
  | access {i : Instr} (a n : Nat) (range : loadRange s i = some (a, n) ∨ storeRange s i = some (a, n))
      (past : s.memSize.toNat < a + n) : ExecCause s i .dataBounds
  | number (notExit : s.reg params.syscallNumReg ≠ params.exitSentinel)
      (notWrite : s.reg params.syscallNumReg ≠ 1#32) : ExecCause s .ecall .syscall
  | buffer (write : s.reg params.syscallNumReg = 1#32)
      (past : s.memSize.toNat < (s.reg params.writePtrReg).toNat + (s.reg params.writeLenReg).toNat) :
      ExecCause s .ecall .syscallBounds

/-- A load that raises was out of bounds. -/
theorem loadOp_raise {n : Nat} {ext : BitVec (8 * n) → Word} {rd rs1 : Reg} {imm : BitVec 12} {s : State}
    {r : ErrorReason} (h : loadOp n ext rd rs1 imm s = raise r s) :
    r = .dataBounds ∧ s.memSize.toNat < (effAddr s rs1 imm).toNat + n := by
  by_cases inside : (effAddr s rs1 imm).toNat + n ≤ s.memSize.toNat
  · cases (loadOp_of_inBounds inside).symm.trans h
  · have past := Nat.lt_of_not_le inside
    cases (loadOp_of_outOfBounds past).symm.trans h
    exact ⟨rfl, past⟩

/-- A store that raises was out of bounds. -/
theorem storeOp_raise {n : Nat} {rs2 rs1 : Reg} {imm : BitVec 12} {s : State} {r : ErrorReason}
    (h : storeOp n rs2 rs1 imm s = raise r s) :
    r = .dataBounds ∧ s.memSize.toNat < (effAddr s rs1 imm).toNat + n := by
  by_cases inside : (effAddr s rs1 imm).toNat + n ≤ s.memSize.toNat
  · cases (storeOp_of_inBounds inside).symm.trans h
  · have past := Nat.lt_of_not_le inside
    cases (storeOp_of_outOfBounds past).symm.trans h
    exact ⟨rfl, past⟩

/-- An environment call that raises had no known number, or a buffer past MEM_SIZE (R163, R164). -/
theorem ExecCause.of_execEcall {s : State} {r : ErrorReason} (h : execEcall s = raise r s) : ExecCause s .ecall r := by
  rcases ecallWith_cases params s with ⟨-, e⟩ | ⟨-, -, _, -, e⟩ | ⟨-, write, failed, e⟩ | ⟨notExit, notWrite, e⟩ <;>
    cases e.symm.trans h
  · refine .buffer write (Nat.lt_of_not_le fun inside => ?_)
    cases (readBuffer_ok inside).symm.trans failed
  · exact .number notExit notWrite

/-- Every error of an instruction has its cause: the loads, the stores and ECALL raise, the others complete (R171). -/
theorem exec_raise_cause {i : Instr} {s : State} {r : ErrorReason} (h : exec i s = raise r s) : ExecCause s i r := by
  cases i
  case lb | lh | lw | lbu | lhu =>
    obtain ⟨rfl, past⟩ := loadOp_raise h
    exact .access _ _ (.inl rfl) past
  case sb | sh | sw =>
    obtain ⟨rfl, past⟩ := storeOp_raise h
    exact .access _ _ (.inr rfl) past
  case ecall => exact .of_execEcall h
  all_goals cases h

/-- The advance moves no range: an address is computed from registers (R35). -/
theorem loadRange_advance (s : State) (i : Instr) : loadRange s.advance i = loadRange s i := by cases i <;> rfl

theorem storeRange_advance (s : State) (i : Instr) : storeRange s.advance i = storeRange s i := by cases i <;> rfl

/-- Settles O33: a step raises in the fetch, at the decoder or in the instruction. -/
theorem everyErrorHasItsCause : Obligations.EveryErrorHasItsCause := by
  intro s r a h
  obtain ⟨running, ⟨failed, -⟩ | ⟨w, word, -, ⟨⟨x, unknown⟩, rfl⟩ | ⟨i, decoded, raised⟩⟩⟩ := step_error h
  · refine ⟨running, ?_⟩
    obtain ⟨rfl, cause⟩ | ⟨rfl, cause⟩ := fetch_error_cause failed <;> exact cause
  · exact ⟨running, w, x, word, unknown⟩
  · refine ⟨running, ?_⟩
    cases exec_raise_cause raised with
    | access a n range past =>
      rw [loadRange_advance, storeRange_advance] at range
      exact ⟨i, a, n, ⟨w, word, decoded⟩, range, past⟩
    | number notExit notWrite => exact ⟨⟨w, word, decoded⟩, notExit, notWrite⟩
    | buffer write past => exact ⟨⟨w, word, decoded⟩, write, past⟩

/-- Settles O34: a fetch error is raised on the state itself, every other on the advanced one. -/
theorem failingStepChangesAtMostThePc : Obligations.FailingStepChangesAtMostThePc := by
  intro s r a h
  obtain ⟨-, ⟨failed, rfl⟩ | ⟨w, -, rfl, ⟨-, rfl⟩ | ⟨i, -, raised⟩⟩⟩ := step_error h
  · obtain ⟨rfl, -⟩ | ⟨rfl, -⟩ := fetch_error_cause failed <;> rfl
  · rfl
  · cases exec_raise_cause raised <;> rfl

/-! ### What a completed step has changed -/

/-- A register that an instruction has changed is its destination, and not register 0 (R12, R201). -/
theorem InstrEffect.reg_changed {i : Instr} {s t : State} {r : Reg} (h : InstrEffect s i t)
    (changed : t.reg r ≠ s.reg r) : r ≠ 0#5 ∧ destOf i = some r := by
  refine ⟨fun zero => changed (by rw [zero, State.reg_zero, State.reg_zero]), ?_⟩
  cases h with
  | wroteReg rd v dest =>
    by_cases other : r = rd
    · rw [other, dest]
    · exact absurd (s.reg_setReg_ne v other) changed
  | jumped rd target dest =>
    by_cases other : r = rd
    · rw [other, dest]
    · exact absurd (s.reg_setReg_ne s.pc other) changed
  | branched | stored | wroteOut | exited => exact absurd rfl changed

/-- Settles O38: a step changes the registers as its instruction does. -/
theorem onlyTheDestinationRegisterChanges : Obligations.OnlyTheDestinationRegisterChanges := by
  intro s t r h changed
  obtain ⟨-, w, i, u, word, decoded, executed, rfl⟩ := step_next h
  obtain ⟨notZero, dest⟩ := (exec_instrEffect executed).reg_changed changed
  exact ⟨notZero, i, ⟨w, word, decoded⟩, dest⟩

/-- An instruction keeps MEM_SIZE (R24). -/
theorem InstrEffect.memSize {i : Instr} {s t : State} (h : InstrEffect s i t) : t.memSize = s.memSize := by
  cases h <;> rfl

/-- A byte that an instruction has changed is one of those it stores to, in bounds (R34, R39). -/
theorem InstrEffect.byte_changed {i : Instr} {s t : State} {b : Nat} (wf : Memory.wf s.mem = true)
    (h : InstrEffect s i t) (changed : t.byte b ≠ s.byte b) :
    ∃ a n, storeRange s i = some (a, n) ∧ a ≤ b ∧ b < a + n ∧ a + n ≤ s.memSize.toNat := by
  cases h with
  | stored a n v range inside =>
    by_cases written : a ≤ b ∧ b < a + n
    · obtain ⟨low, high⟩ := written
      exact ⟨a, n, range, low, high, inside⟩
    · rw [State.byte_writeLE wf, if_neg written] at changed
      exact absurd rfl changed
  | wroteReg | jumped | branched | wroteOut | exited => exact absurd rfl changed

/-- Settles O39: a step changes memory as its instruction does. -/
theorem onlyStoresWriteMemory : Obligations.OnlyStoresWriteMemory := by
  intro s t wf h
  obtain ⟨-, w, i, u, word, decoded, executed, rfl⟩ := step_next h
  have effect := exec_instrEffect executed
  refine ⟨effect.memSize, fun b changed => ?_⟩
  obtain ⟨a, n, range, written⟩ := InstrEffect.byte_changed (s := s.advance) wf effect changed
  exact ⟨i, a, n, ⟨w, word, decoded⟩, (storeRange_advance s i).symm.trans range, written⟩

/-! ### What a step does not read -/

/-- A state with `n` more counted, `o` written out before its own output, and `p` presented. -/
def State.withPast (n : Nat) (o : List Byte) (p : Option Nat) (s : State) : State :=
  { s with instret := s.instret + n, out := o ++ s.out, countOut := p }

/-- What `State.withPast` has become after a step: a finished run presents the count, any other what it did before. -/
def State.withPastRetired (n : Nat) (o : List Byte) (p : Option Nat) (s : State) : State :=
  { s with
    instret := s.instret + n
    out := o ++ s.out
    countOut := if s.status = .finished then some (s.instret + n) else p }

/-- No operation reads the counter, the output or the presented count (R19, R20, R89). -/
theorem unread_withPast (n : Nat) (o : List Byte) (p : Option Nat) : Unread (State.withPast n o p) where
  pc _ := rfl
  regs _ := rfl
  mem _ := rfl
  memSize _ := rfl
  status _ := rfl
  setReg _ _ _ := rfl
  setPc _ _ := rfl
  setMem _ _ := rfl
  setStatus _ _ := rfl
  emit s bs := congrArg (fun out => { s with instret := s.instret + n, out, countOut := p })
    (List.append_assoc o s.out bs)

/-- The run controller counts on from where the counter stands, and presents it on Finished (R87, R88). -/
theorem retire_withPast (n : Nat) (o : List Byte) (p : Option Nat) (u : State) :
    (State.withPast n o p u).retire = State.withPastRetired n o p u.retire := by
  have count : u.instret + n + 1 = u.instret + 1 + n := Nat.add_right_comm _ _ _
  simp only [State.withPast, State.withPastRetired, State.retire, count]
  rfl

/-- Settles O41: the change passes through the instruction unread and through `retire` as that lemma says. -/
theorem counterAndOutputAreNeverRead : Obligations.CounterAndOutputAreNeverRead := fun n o p s =>
  (unread_withPast n o p).step s (g := State.withPastRetired n o p) (retire_withPast n o p) fun _ _ => rfl

end Sys2Proof.Slice0
end
